-- ==== Sys2Proof/Word.lean ====
section
/-! DEFINITION. The one word type of the core: a byte. Cells, addresses, register values and the instruction word are all
8-bit unsigned numbers (00_scope.md R6, 10_state.md R10). -/

namespace Sys2Proof

/-- A cell value, an address or a register value: 0 to 255 (R6, R30). -/
abbrev Byte := BitVec 8

end Sys2Proof
end

