-- ==== Sys2Proof/Syntax.lean ====
section
/-! DEFINITION. The instruction set: one constructor for the one row of spec/opcode_table.json. -/

namespace Sys2Proof

/-- The instructions of the core (30_encoding.md R50: exactly one). -/
inductive Instr where
  /-- `RSSB x`: subtract and branch if borrow. `x` is the operand address, the whole instruction word (R50, R52). -/
  | rssb (x : Byte)
  deriving DecidableEq, Repr

end Sys2Proof
end

