-- ==== Sys2Proof/Decode.lean ====
section
/-! DEFINITION. The decoder, from bytes to an instruction, and the encoder (30_encoding.md). The opcode table has one row with
mask 0x00 and match 0x00: every byte is the instruction RSSB and the byte is its operand address (R50, R53, R55). -/

namespace Sys2Proof

/-- Why the decoder gives no instruction. There is no illegal, reserved or hint encoding (R53). -/
inductive DecodeReject where
  /-- There is no byte to decode. Raised by `decode` on an empty list only; the machine's fetch always delivers a byte. -/
  | noWord
  deriving DecidableEq, Repr

/-- The instruction a word is: the field `x` is bits 7..0, the whole byte, unsigned (R50, R52). -/
def decodeWord (w : Byte) : Instr :=
  .rssb w

/-- The instruction at the head of a list of bytes, and the bytes after it: an instruction is one cell long (R51). -/
def decode : List Byte → Except DecodeReject (Instr × List Byte)
  | [] => .error .noWord
  | w :: rest => .ok (decodeWord w, rest)

/-- The bytes of an instruction (R50): no opcode field, the operand address is all of it. -/
def encode : Instr → List Byte
  | .rssb x => [x]

/-- The bytes of a table word of `nbits` bits with value `w`, bits above `nbits` zero. A word wider than one cell is no word of
this core (R51) and has no bytes here. -/
def tableBytes (nbits w : Nat) : List Byte :=
  if nbits ≤ 8 then [BitVec.ofNat 8 (w % 2 ^ nbits)] else []

/-- What the decoder reads from a word numbered as spec/opcode_table.json numbers it. -/
def decodeTableWord (nbits w : Nat) : Option Instr :=
  match decode (tableBytes nbits w) with
  | .ok (i, _) => some i
  | .error _ => none

end Sys2Proof
end

