-- ==== Sys2Proof/Config.lean ====
section
/-! DEFINITION. The parameters of the core. Every one is fixed by the spec (00_scope.md R5); no value is left to an
implementation (41_rssb.md R85, 93_implementation_defined.md section 1), so there is no free value here. -/

namespace Sys2Proof.Config

/-- `CELLS`: the number of addressable cells (R5). -/
abbrev cellCount : Nat := 256

/-- `IMAGE_LEN`: the number of bytes in a program image (R5). -/
abbrev imageLen : Nat := 256

/-- `PC_ADDR`: the cell that is the program counter (R5, R12). -/
def pcAddr : Byte := 0#8

/-- `A_ADDR`: the cell that is the accumulator (R5, R13). -/
def accAddr : Byte := 1#8

/-- `Z_ADDR`: the hardwired zero cell (R5, R11). -/
def zeroAddr : Byte := 2#8

end Sys2Proof.Config
end

