-- ==== Sys2Proof/Machine/Flags.lean ====
section
/-! DEFINITION. Every flag computation of the spec: the borrow of a subtraction (R60), the overflow of an increment (R63) and
the two per-cycle PC overflow signals (R21). -/

namespace Sys2Proof.Machine

/-- The borrow of `a - b`: true exactly when the difference is negative, the unsigned comparison `a < b` (R60, R62). -/
def borrowFlag (a b : Byte) : Bool :=
  decide (a.toNat < b.toNat)

/-- The overflow of `v + 1`: true exactly when `v` is 255 (R63). -/
def overflowFlag (v : Byte) : Bool :=
  decide (v.toNat + 1 = 256)

/-- The signals `pc_overflow_1` and `pc_overflow_2`, which live inside one cycle and are not state (R21). -/
structure PcSignals where
  overflow1 : Bool
  overflow2 : Bool
  deriving DecidableEq, Repr

/-- "either of the two PC increments" wrapped (R92). -/
def anyOverflow (sig : PcSignals) : Bool :=
  sig.overflow1 || sig.overflow2

end Sys2Proof.Machine
end

