-- ==== Sys2Proof/Machine/Alu.lean ====
section
/-! DEFINITION. The two combinational functions of the core (40_alu.md): subtract with borrow and increment with overflow.
Both are pure, total and without any other input (R61). -/

namespace Sys2Proof.Machine

/-- `SubBorrow(a, b)`: the minuend first (R60). The BORROW flag is no input (R61). -/
def subBorrow (a b : Byte) : Byte × Bool :=
  (a - b, borrowFlag a b)

/-- `Inc8(v)` (R63). -/
def inc8 (v : Byte) : Byte × Bool :=
  (v + 1#8, overflowFlag v)

end Sys2Proof.Machine
end

