-- ==== Sys2Proof/Machine/State.lean ====
section
/-! DEFINITION. The state of the core (10_state.md), its stop reasons, and the state after reset (R22). -/

namespace Sys2Proof.Machine

/-- The storage cells, as the cells that do not hold what an unlisted address reads as, by rising address
(`Memory.wf`, Machine/Ops.lean). Cell 2 has no storage (R11) and is never listed. -/
abbrev Memory := List Host.Cell

/-- `RUN` (R18): the state of the fetch-execute state machine. -/
inductive RunState where
  | running
  | halted
  deriving DecidableEq, Repr

/-- `CAUSE` (R19): why the core halted. -/
inductive HaltCause where
  /-- No halt yet. -/
  | none
  /-- An increment of the PC wrapped from 255 to 0 (R92). -/
  | pcOverflow
  /-- PC = 0 and A = 0 after a cycle, the source's "type 1" (R96). Never the reported cause (R97). -/
  | zeroLoop
  /-- PC = 2 and A = 1 after a cycle, the source's "type 2" (R93). -/
  | oneLoop
  deriving DecidableEq, Repr

/-- The state of the core: 255 storage cells, MAR, MDR, BORROW, RUN, CAUSE, and nothing else (R10 to R21). PC and A are cells 0
and 1 of `mem`, not fields (R12, R13). -/
structure State where
  /-- The storage cells (R10). -/
  mem : Memory
  /-- The operand address of the last cycle (R15). -/
  mar : Byte
  /-- The operand value of the last cycle, from before its writes (R16). -/
  mdr : Byte
  /-- Whether the last cycle's subtraction went below zero (R17). -/
  borrow : Bool
  /-- Running or Halted (R18). -/
  run : RunState
  /-- The halt cause (R19). -/
  cause : HaltCause
  deriving DecidableEq, Repr

/-- Why the machine stops without a next state. A running core never does (R8, R110). -/
inductive Fault where
  /-- The core is halted: it has no step (R98, U8). Raised by `haltedStep` for a core whose RUN is Halted. Safe: nothing is said
  of what follows the end of a run. -/
  | halted
  /-- LoadError: the host's source held fewer than 256 bytes (R37, R113). Raised by `loadFrom`, before any cycle, and by
  `Lifetime.cycle` of a core whose load failed. Safe: no run follows. -/
  | loadError
  deriving DecidableEq, Repr

/-- Why the model gives no meaning. No step of the core answers one. -/
inductive Refusal where
  /-- The instruction has no meaning in this model yet. Raised by no arm: every instruction has its meaning. Safe. -/
  | notModelled (mnemonic : String)
  /-- A load is asked for after the one load of a lifetime (R36 "once per lifetime"; the spec does not say what a second would
  do, N11). Raised by `Lifetime.deliver`. Safe. -/
  | loadNotPossible
  /-- A cycle is asked for before the image was delivered (R132). Raised by `Lifetime.cycle`. Safe. -/
  | noImageYet
  deriving DecidableEq, Repr

/-- The core after reset, before a load (R22, R130): every cell 0, MAR and MDR 0, BORROW false, Running, no cause.
DESIGN CHOICE of the spec (its decisions D3 and D5; log entries 3 and 4): the values of MAR, MDR, BORROW and CAUSE, on which
the source is silent. Unsafe for claims about the state before the first cycle. -/
def State.reset : State :=
  { mem := [], mar := 0#8, mdr := 0#8, borrow := false, run := .running, cause := .none }

end Sys2Proof.Machine
end

