-- ==== Sys2Proof/WellFormed.lean ====
section
/-! DEFINITION. What is checked before it is used: an instruction (nothing to refuse, R53) and the host's byte source (it must
hold at least 256 bytes, R37). The canonical form of the memory is `Machine.Memory.wf` in Machine/Ops.lean. -/

namespace Sys2Proof

/-- Every value of the operand address is legal (30_encoding.md R53), and the field's type already holds it to 8 bits, so no
instruction is ill-formed. -/
def Instr.wellFormed : Instr → Bool
  | .rssb _ => true

/-- The host's byte source can deliver an image: "at least 256 bytes" (20_memory.md R37). -/
def sourceWellFormed (src : List Byte) : Bool :=
  decide (Config.imageLen ≤ src.length)

/-- A program image: exactly 256 bytes (00_scope.md R5, 20_memory.md R36). -/
abbrev Image := Vector Byte Config.imageLen

end Sys2Proof
end

