-- ==== Sys2Proof/Machine/Ops.lean ====
section
/-! DEFINITION. The named operations over memory and registers: the two access rules (R31, R32), the aliases PC and A (R12,
R13), the fetch (R52), the PC increments of steps 5 and 6 (R70), the diagnostic latch of step 7, the halt evaluation (R95) and
the load (R36). The core has no exception to take and none to return from (R110, R115, R117): what stands in that place is the
halt, which saves nothing and writes RUN and CAUSE. -/

namespace Sys2Proof.Machine

/-! ### The memory as data -/

/-- What an unlisted address reads as: 0, the reset contents ("created zero-filled", R22). -/
def Memory.unlisted : Byte := 0#8

/-- The canonical form: addresses strictly rising, no entry equal to what an unlisted address reads as, every address one of the
255 that have a storage cell (R10, R11). -/
abbrev Memory.wf (m : Memory) : Prop :=
  List.Pairwise (fun c d => c.1 < d.1) m ∧
    ∀ c ∈ m, c.2 ≠ Memory.unlisted ∧ c.1 < Config.cellCount ∧ c.1 ≠ Config.zeroAddr.toNat

/-- The stored value at an address. -/
def Memory.cellAt : Memory → Nat → Byte
  | [], _ => Memory.unlisted
  | c :: rest, k => if c.1 = k then c.2 else Memory.cellAt rest k

/-- Put a cell before the first one of a larger address. -/
def Memory.insertCell (c : Host.Cell) : Memory → Memory
  | [] => [c]
  | d :: rest => if c.1 < d.1 then c :: d :: rest else d :: Memory.insertCell c rest

/-- Replace the stored value at an address; the value an unlisted address reads as is not listed. -/
def Memory.store (m : Memory) (k : Nat) (v : Byte) : Memory :=
  if v = Memory.unlisted then m.filter (fun c => c.1 ≠ k)
  else Memory.insertCell (k, v) (m.filter (fun c => c.1 ≠ k))

/-- The storage cells that hold the bytes of an image from address `k` on; the byte for the zero cell is dropped (R36). -/
def Memory.ofBytes : Nat → List Byte → Memory
  | _, [] => []
  | k, b :: rest =>
    if k = Config.zeroAddr.toNat ∨ b = Memory.unlisted then Memory.ofBytes (k + 1) rest
    else (k, b) :: Memory.ofBytes (k + 1) rest

/-! ### Updates of the state, one for each group of fields the spec writes together -/

/-- Replace the storage cells. -/
def State.setMem (s : State) (m : Memory) : State :=
  { s with mem := m }

/-- Step 7 of the cycle: MAR, MDR and BORROW (R70). -/
def State.setDiagnostics (s : State) (mar mdr : Byte) (borrow : Bool) : State :=
  { s with mar := mar, mdr := mdr, borrow := borrow }

/-- A halt: RUN and CAUSE, and nothing else (R95, R115). -/
def State.setHalt (s : State) (cause : HaltCause) : State :=
  { s with run := .halted, cause := cause }

/-! ### The two access rules -/

/-- `MemRead(a, 1)`: 0 at the zero cell, else the stored value (R31). -/
def memRead (s : State) (a : Byte) : Byte :=
  if a = Config.zeroAddr then 0#8 else Memory.cellAt s.mem a.toNat

/-- `MemWrite(a, 1, v)`: discarded at the zero cell, else one cell changes (R32). -/
def memWrite (s : State) (a v : Byte) : State :=
  if a = Config.zeroAddr then s else s.setMem (Memory.store s.mem a.toNat v)

/-- `PC`: cell 0 (R12). -/
def State.pc (s : State) : Byte :=
  memRead s Config.pcAddr

/-- `A`: cell 1 (R13). -/
def State.acc (s : State) : Byte :=
  memRead s Config.accAddr

/-! ### The parts of a cycle -/

/-- Step 1: the instruction word, the cell the PC points at, through the read rule (R52, R70). -/
def fetchWord (s : State) : Byte :=
  memRead s s.pc

/-- One increment of the PC, on the PC as it is now, and whether it wrapped (step 5, R63, R70). -/
def incPc (s : State) : State × Bool :=
  (memWrite s Config.pcAddr (inc8 s.pc).1, (inc8 s.pc).2)

/-- Steps 5 and 6: one increment, and a second one exactly on a borrow (R70). -/
def advancePc (borrowed : Bool) (s : State) : State × PcSignals :=
  if borrowed then
    ((incPc (incPc s).1).1, { overflow1 := (incPc s).2, overflow2 := (incPc (incPc s).1).2 })
  else
    ((incPc s).1, { overflow1 := (incPc s).2, overflow2 := false })

/-- The zero-loop predicate on the state after a cycle (R96). -/
def zeroLoopHolds (s : State) : Bool :=
  decide (s.pc = 0#8 ∧ s.acc = 0#8)

/-- The one-loop predicate on the state after a cycle (R93). -/
def oneLoopHolds (s : State) : Bool :=
  decide (s.pc = 2#8 ∧ s.acc = 1#8)

/-- `HaltEval`: first match wins, in the order PC overflow, zero loop, one loop; RUN and CAUSE change, nothing else (R95). -/
def haltEval (sig : PcSignals) (s : State) : State :=
  if anyOverflow sig then s.setHalt .pcOverflow
  else if zeroLoopHolds s then s.setHalt .zeroLoop
  else if oneLoopHolds s then s.setHalt .oneLoop
  else s

/-- What a step of a halted core is: none (R90, R98, U8). DEDUCED, safe, log entry 1: the model's stuck state. -/
def haltedStep (_s : State) : Host.Outcome State Fault Refusal :=
  .fault .halted

/-! ### The load -/

/-- `Load(image)`: every storage cell is replaced, byte 2 is dropped, no diagnostic register is set (R36). -/
def load (image : Image) (s : State) : State :=
  s.setMem (Memory.ofBytes 0 image.toList)

/-- The image a byte source gives: its first 256 bytes, or none when it holds fewer (R37, D13). -/
def imageOfSource (src : List Byte) : Option Image :=
  if h : Config.imageLen ≤ src.length then some ⟨(src.take Config.imageLen).toArray, by simpa using h⟩ else none

/-- `Init(image)`: the state the first cycle starts from (R99). -/
def init (image : Image) : State :=
  load image State.reset

/-! ### Placing one instruction where the next step fetches (not behaviour of the core; log entry 9) -/

/-- The general-purpose cell an instruction is put in when the PC points at cell 0, 1 or 2: there the fetched word is the PC, A
or the constant 0, and cannot be chosen. DESIGN CHOICE, log entry 9. -/
def placeAddr : Byte := 16#8

/-- The state in which the next step fetches and runs the word `w`: `w` stands in the cell the PC points at (in `placeAddr`, with
the PC moved there, when the PC points at cell 0, 1 or 2), and the core is Running. DESIGN CHOICE, log entry 9. -/
def placeWord (w : Byte) (s : State) : State :=
  if s.pc.toNat < 3 then
    { memWrite (memWrite s Config.pcAddr placeAddr) placeAddr w with run := .running, cause := .none }
  else
    { memWrite s s.pc w with run := .running, cause := .none }

end Sys2Proof.Machine
end

