-- ==== Sys2Proof/Machine/Operands.lean ====
section
/-! DEFINITION. The operand forms. There is one explicit form, absolute direct: the cell at the operand address (R52, R87), and
one implicit operand, the accumulator (R13). Both are read and written; there is no immediate. -/

namespace Sys2Proof.Machine

/-- The effective address of the operand: the operand address itself, with no extension, scaling, index or offset (R52, R87). -/
def operandAddress (x : Byte) : Byte :=
  x

/-- The operand value `x_value` (step 2, R70). -/
def readOperand (x : Byte) (s : State) : Byte :=
  memRead s (operandAddress x)

/-- The result to the operand cell (step 4, R70): a jump at address 0, A again at address 1, discarded at address 2 (R54). -/
def writeOperand (x r : Byte) (s : State) : State :=
  memWrite s (operandAddress x) r

/-- The result to the accumulator (step 3, R70). -/
def writeAcc (r : Byte) (s : State) : State :=
  memWrite s Config.accAddr r

end Sys2Proof.Machine
end

