-- ==== Sys2Proof/Machine/Rssb.lean ====
section
/-! DEFINITION. The meaning of RSSB (41_rssb.md R70), the whole instruction set. Step 1, the fetch of the operand address, is the
machine's step (Machine/Step.lean): the instruction already carries it. -/

namespace Sys2Proof.Machine

/-- Steps 2 to 7 of the cycle with operand address `x`, and the cycle's PC overflow signals (R70). Both operands are read before
any write; MDR keeps the operand value from before the write (R81). -/
def rssbCycle (x : Byte) (s : State) : State × PcSignals :=
  let xv := readOperand x s
  let d := subBorrow xv s.acc
  let written := writeOperand x d.1 (writeAcc d.1 s)
  let advanced := advancePc d.2 written
  (advanced.1.setDiagnostics x xv d.2, advanced.2)

/-- `RSSB x`: the cycle, then the halt evaluation on its result with its own signals (R70, R95; one step of the model, R91 and
D2). It always completes (R8). DESIGN CHOICE, safe, log entry 2: RUN is tested by the machine's step, not here. -/
def execRssb (x : Byte) (s : State) : Host.Outcome State Fault Refusal :=
  .next (haltEval (rssbCycle x s).2 (rssbCycle x s).1)

end Sys2Proof.Machine
end

