-- ==== Sys2Proof/Machine/Step.lean ====
section
/-! DEFINITION. One step of the core: one iteration of the run loop (R91), cycle and halt evaluation, atomic (D2). -/

namespace Sys2Proof.Machine

/-- While RUN is Running: fetch the word the PC points at, decode it, run it (R91, R70). Once it is Halted there is no step
(R98). -/
def step (s : State) : Host.Outcome State Fault Refusal :=
  match s.run with
  | .running => exec (decodeWord (fetchWord s)) s
  | .halted => haltedStep s

/-- `s` with a table word placed where `step` fetches its next instruction. It stands for the load of an image that holds the
word there; it is no operation of the core (log entry 9). -/
def State.withFetchWord (s : State) (nbits w : Nat) : State :=
  placeWord (BitVec.ofNat 8 (w % 2 ^ nbits)) s

end Sys2Proof.Machine
end

