-- ==== Sys2Proof/Machine/Run.lean ====
section
/-! DEFINITION. The run (R91): steps until the core halts. The number of cycles is a way to name a state of the run; the core
has no cycle limit, and a run without a halt is an infinite execution (R102, D10). -/

namespace Sys2Proof.Machine

/-- The state of the run from `s` after `n` cycles; a halted core performs no further cycle (R98). -/
def runFor : Nat → State → State
  | 0, s => s
  | n + 1, s =>
    match step s with
    | .next t => runFor n t
    | .fault _ => s
    | .refused _ => s

/-- Every state of the run from `s` is Running, so the run never halts (R102). -/
def RunsForever (s : State) : Prop :=
  ∀ n, (runFor n s).run = .running

/-- The run from `s` ends in `t`, a Halted state of it (R98). -/
def RunEndsIn (s t : State) : Prop :=
  ∃ n, runFor n s = t ∧ t.run = .halted

end Sys2Proof.Machine
end

