-- ==== Sys2Proof/Machine/HostInterface.lean ====
section
/-! DEFINITION. The interface of the core at transaction level (R99, D1): the image in, the snapshot out, and the phases of a
lifetime (reset, load, run; D8) around the core. -/

namespace Sys2Proof.Machine

/-- The terminal snapshot (R100). -/
structure Snapshot where
  pc : Byte
  a : Byte
  z : Byte
  mar : Byte
  mdr : Byte
  borrow : Bool
  /-- The 256 cells by rising address, read through the read rule, so entry 2 is 0 (D4). -/
  mem : List Byte
  /-- The spec's addition (D15). -/
  cause : HaltCause
  deriving DecidableEq, Repr

/-- Every cell of the address space, read through the read rule (R31, R100). -/
def memoryImage (s : State) : List Byte :=
  (List.range Config.cellCount).map (fun k => memRead s (BitVec.ofNat 8 k))

/-- The fields of the snapshot, from the state at the halt (R100). -/
def snapshotOf (s : State) : Snapshot :=
  { pc := s.pc, a := s.acc, z := memRead s Config.zeroAddr, mar := s.mar, mdr := s.mdr, borrow := s.borrow,
    mem := memoryImage s, cause := s.cause }

/-- The output of the core: the snapshot of a halted core; a running core shows nothing (R99, R100, D11). -/
def observe (s : State) : Option Snapshot :=
  match s.run with
  | .running => none
  | .halted => some (snapshotOf s)

/-- The run from `s` returns the snapshot `snap` (R91, R100). -/
def RunReturns (s : State) (snap : Snapshot) : Prop :=
  ∃ t, RunEndsIn s t ∧ observe t = some snap

/-- `RUN` as one bit: 0 Running, 1 Halted (R18; the spec's encoding D17). -/
def runCode : RunState → BitVec 1
  | .running => 0
  | .halted => 1

/-- `CAUSE` as two bits (R19; the spec's encoding D5). -/
def causeCode : HaltCause → BitVec 2
  | .none => 3
  | .pcOverflow => 0
  | .zeroLoop => 1
  | .oneLoop => 2

/-- Deliver a byte source to the core: the load with its first 256 bytes, or LoadError and no change (R37, R113). -/
def loadFrom (src : List Byte) (s : State) : Host.Outcome State Fault Refusal :=
  match imageOfSource src with
  | some image => .next (load image s)
  | none => .fault .loadError

/-- Where a lifetime of the core stands (R99, D8). -/
inductive Phase where
  /-- After reset, before the load. -/
  | awaitingLoad
  /-- The load failed; no cycle ever runs (R113). -/
  | loadFailed
  /-- The image is loaded; the run has started. -/
  | loaded
  deriving DecidableEq, Repr

/-- A core with the phase of its lifetime. The phase is no state of the core (D8). -/
structure Lifetime where
  phase : Phase
  core : State
  deriving DecidableEq, Repr

/-- The start of every lifetime (R99, R130). -/
def Lifetime.start : Lifetime :=
  { phase := .awaitingLoad, core := State.reset }

/-- The host delivers its byte source: once, before the run (R36, R99). A failed load leaves the core as it was, for ever (R113,
D8). A later delivery is refused by name: the spec does not say what it would do (N11). DESIGN CHOICE, safe, log entry 8. -/
def Lifetime.deliver (src : List Byte) (l : Lifetime) : Host.Outcome Lifetime Fault Refusal :=
  match l.phase with
  | .awaitingLoad =>
    match loadFrom src l.core with
    | .next t => .next { phase := .loaded, core := t }
    | .fault _ => .next { phase := .loadFailed, core := l.core }
    | .refused r => .refused r
  | .loadFailed => .refused .loadNotPossible
  | .loaded => .refused .loadNotPossible

/-- One cycle of the lifetime's core: only after a successful load (R132). -/
def Lifetime.cycle (l : Lifetime) : Host.Outcome Lifetime Fault Refusal :=
  match l.phase with
  | .awaitingLoad => .refused .noImageYet
  | .loadFailed => .fault .loadError
  | .loaded =>
    match step l.core with
    | .next t => .next { l with core := t }
    | .fault r => .fault r
    | .refused r => .refused r

/-- What the host receives: the snapshot, once the loaded core has halted (R99, R100, R113). -/
def Lifetime.output (l : Lifetime) : Option Snapshot :=
  match l.phase with
  | .awaitingLoad => none
  | .loadFailed => none
  | .loaded => observe l.core

end Sys2Proof.Machine
end

