-- ==== Sys2Proof/ClosedForm.lean ====
section
/-! DEFINITION. A second description of the step, for statements only: the closed form of the cycle (41_rssb.md R71) over a
memory that is a plain function from addresses to bytes (20_memory.md R41), with R95 on top. No part of the machine uses it. -/

namespace Sys2Proof.ClosedForm

open Sys2Proof.Machine

/-- What can be read from a core: its 256 cells and its registers. -/
structure View where
  cell : Byte → Byte
  mar : Byte
  mdr : Byte
  borrow : Bool
  run : RunState
  cause : HaltCause

/-- The view of a state of the machine. -/
def viewOf (s : State) : View :=
  { cell := memRead s, mar := s.mar, mdr := s.mdr, borrow := s.borrow, run := s.run, cause := s.cause }

/-- The names R71 gives to the values of one cycle. -/
structure Values where
  x : Byte
  xv : Byte
  r : Byte
  b : Bool
  base : Byte
  overflow1 : Bool
  overflow2 : Bool
  pc : Byte

/-- R71, line by line; numbers are mathematical integers until they are narrowed. -/
def valuesOf (v : View) : Values :=
  let p := v.cell 0#8
  let x := v.cell p
  let a := v.cell 1#8
  let xv := v.cell x
  let r := BitVec.ofInt 8 ((xv.toNat : Int) - (a.toNat : Int))
  let b := decide (xv.toNat < a.toNat)
  let base := if x = 0#8 then r else p
  { x := x, xv := xv, r := r, b := b, base := base, overflow1 := decide (base.toNat = 255),
    overflow2 := b && decide (base.toNat = 254),
    pc := BitVec.ofNat 8 (base.toNat + 1 + if b then 1 else 0) }

/-- The cells after the cycle (R71). -/
def cellsAfter (v : View) (a : Byte) : Byte :=
  let c := valuesOf v
  if a = 0#8 then c.pc
  else if a = 1#8 then c.r
  else if a = c.x ∧ c.x ≠ 2#8 then c.r
  else v.cell a

/-- The halt cause after the cycle, if one of the predicates holds (R95). -/
def haltAfter (v : View) : Option HaltCause :=
  let c := valuesOf v
  if c.overflow1 = true ∨ c.overflow2 = true then some .pcOverflow
  else if cellsAfter v 0#8 = 0#8 ∧ cellsAfter v 1#8 = 0#8 then some .zeroLoop
  else if cellsAfter v 0#8 = 2#8 ∧ cellsAfter v 1#8 = 1#8 then some .oneLoop
  else none

/-- One cycle of a running core and its halt evaluation (R71, R95). -/
def cycleView (v : View) : View :=
  let c := valuesOf v
  { cell := cellsAfter v, mar := c.x, mdr := c.xv, borrow := c.b,
    run := if (haltAfter v).isSome then .halted else v.run,
    cause := (haltAfter v).getD v.cause }

/-- The view after `n` cycles of a core that stops when it is halted (R91, R98). -/
def runView : Nat → View → View
  | 0, v => v
  | n + 1, v => if v.run = .running then runView n (cycleView v) else v

end Sys2Proof.ClosedForm
end

