-- ==== Sys2Proof/Safety.lean ====
section
/-! DEFINITION. What counts as safe: the outcomes a step may have, and the invariant of the core (R24, R97, R101). -/

namespace Sys2Proof.Machine

/-- The outcomes a step of the core may have: a next state, or no step because the core is halted (R8, R98). -/
def SafeOutcome : Host.Outcome State Fault Refusal → Prop
  | .next _ => True
  | .fault .halted => True
  | .fault .loadError => False
  | .refused _ => False

/-- A run from `s` is safe: every step of it is, so it can end only in a halt. -/
def SafeRun (s : State) : Prop :=
  ∀ n, SafeOutcome (step (runFor n s))

/-- The invariant of the core. The memory keeps its canonical form, so it lists storage cells only and cell 2 never (R10, R11);
RUN is Halted exactly when there is a cause (R24); the cause is never ZeroLoop (R97); and a halted core shows the PC and A its
cause says (R92, R93). -/
structure CoreInv (s : State) : Prop where
  memory : Memory.wf s.mem
  halted_iff_cause : s.run = .halted ↔ s.cause ≠ .none
  never_zeroLoop : s.cause ≠ .zeroLoop
  overflow_pc : s.cause = .pcOverflow → s.pc = 0#8 ∨ s.pc = 1#8
  oneLoop_pc_acc : s.cause = .oneLoop → s.pc = 2#8 ∧ s.acc = 1#8

end Sys2Proof.Machine
end

