-- ==== Sys2Proof/Certificates/Slice0/Obligations.lean ====
section
/-! DEFINITION. The statements for the provers. Rule numbers are those of spec/. `x - y` on bytes is the difference modulo 256;
comparisons go through `toNat`, so they are unsigned (00_scope.md R6). -/

open Sys2Proof Sys2Proof.Machine

/-! ### Memory -/

/-- R32, R33. A write to an address other than 2 changes that cell and nothing else; a write to address 2 changes nothing; cells
0 and 1 are the PC and A. -/
def Obligations.WriteChangesExactlyOneCell : Prop :=
  ∀ (s : State) (a v : Byte),
    (a ≠ 2#8 → memRead (memWrite s a v) a = v) ∧
    (∀ b, b ≠ a → memRead (memWrite s a v) b = memRead s b) ∧
    (a = 2#8 → memWrite s a v = s) ∧
    (memWrite s 0#8 v).pc = v ∧ (memWrite s 1#8 v).acc = v ∧
    (memWrite s a v).mar = s.mar ∧ (memWrite s a v).mdr = s.mdr ∧ (memWrite s a v).borrow = s.borrow ∧
    (memWrite s a v).run = s.run ∧ (memWrite s a v).cause = s.cause

/-- R34. After any write to address 2, address 2 reads 0 and every other address reads as before. -/
def Obligations.ZeroCellAlwaysReadsZero : Prop :=
  ∀ (s : State) (v : Byte), memRead (memWrite s 2#8 v) 2#8 = 0#8 ∧ ∀ b, memRead (memWrite s 2#8 v) b = memRead s b

/-- The canonical form is canonical: two memories in it that read the same everywhere are the same data (R10, R11; the form is
the model's own, log entry 10). -/
def Obligations.EqualReadsMeanEqualMemory : Prop :=
  ∀ s t : State, Memory.wf s.mem → Memory.wf t.mem → (∀ a, memRead s a = memRead t a) → s.mem = t.mem

/-! ### Reset, load, launch -/

/-- The state after reset (R22, R130). The values of MAR, MDR and BORROW are the spec's decision D3 (log entry 3) and that of
CAUSE its decision D5 (log entry 4), not the source's. -/
def Obligations.ResetLeavesZeroedRunningCore : Prop :=
  (∀ a, memRead State.reset a = 0#8) ∧ State.reset.pc = 0#8 ∧ State.reset.acc = 0#8 ∧ State.reset.mar = 0#8 ∧
    State.reset.mdr = 0#8 ∧ State.reset.borrow = false ∧ State.reset.run = .running ∧ State.reset.cause = .none

/-- `Load(image)` (R36): cell `a` holds byte `a` of the image, cell 2 reads 0, nothing of the old memory survives, and no
register is set. -/
def Obligations.LoadFillsEveryCell : Prop :=
  ∀ (image : Image) (s : State),
    (∀ a : Byte, memRead (load image s) a = if a = 2#8 then 0#8 else image[a.toNat]'a.isLt) ∧
    (load image s).mar = s.mar ∧ (load image s).mdr = s.mdr ∧ (load image s).borrow = s.borrow ∧
    (load image s).run = s.run ∧ (load image s).cause = s.cause

/-- R37 and the spec's decision D13: a source of fewer than 256 bytes gives LoadError, a longer one is cut to its first 256
bytes. -/
def Obligations.SourceIsCutOrRejected : Prop :=
  ∀ (src : List Byte) (s : State),
    (src.length < 256 → loadFrom src s = .fault .loadError) ∧
    (∀ image : Image, image.toList = src.take 256 → loadFrom src s = .next (load image s))

/-- A short source leaves the core in its reset state: no cycle, no snapshot (R113). That no second delivery is taken either is
the model's choice (log entry 8): the spec does not say what one would do (N11). That a longer source loads, cut to 256 bytes, is
the spec's decision D13 (log entry 12). -/
def Obligations.FailedLoadNeverRuns : Prop :=
  (∀ src : List Byte, src.length < 256 →
    ∃ l, Lifetime.start.deliver src = .next l ∧ l.core = State.reset ∧ (∀ l', l.cycle ≠ .next l') ∧
      (∀ src' l', l.deliver src' ≠ .next l') ∧ l.output = none) ∧
  (∀ src : List Byte, 256 ≤ src.length → ∃ l, Lifetime.start.deliver src = .next l ∧ ∃ l', l.cycle = .next l')

/-- R99, R132 and the spec's decision D8: no cycle before the load; after it the core starts from `Init(image)`, each cycle of
the lifetime is a step of the core, no further delivery is possible (log entry 8), and the output is the snapshot of the halted
core only. -/
def Obligations.LifetimeIsResetLoadRun : Prop :=
  ∀ image : Image,
    (∀ l, Lifetime.start.cycle ≠ .next l) ∧
    Lifetime.start.deliver image.toList = .next { phase := .loaded, core := init image } ∧
    ∀ s : State,
      (∀ t, step s = .next t →
        Lifetime.cycle { phase := .loaded, core := s } = .next { phase := .loaded, core := t }) ∧
      (∀ src l, Lifetime.deliver src { phase := .loaded, core := s } ≠ .next l) ∧
      (s.run = .running → Lifetime.output { phase := .loaded, core := s } = none) ∧
      (s.run = .halted → Lifetime.output { phase := .loaded, core := s } = some (snapshotOf s))

/-- R131. The first cycle fetches through cell 0, whose value is the image's byte 0; A starts as byte 1; every byte 0 is a legal
entry point: the first cycle completes. -/
def Obligations.FirstCycleFetchesThroughByteZero : Prop :=
  ∀ image : Image,
    (init image).pc = image[0] ∧ (init image).acc = image[1] ∧
    step (init image) = exec (.rssb (memRead (init image) image[0])) (init image) ∧
    ∃ t, step (init image) = .next t

/-! ### The ALU -/

/-- R60. The first argument is the minuend; the result is the difference modulo 256; the borrow is true exactly when the
difference is negative; the source's three examples; the cycle copies the borrow into BORROW. -/
def Obligations.SubtractReportsBorrow : Prop :=
  (∀ a b : Byte, ((subBorrow a b).1.toNat : Int) = ((a.toNat : Int) - (b.toNat : Int)) % 256 ∧
    ((subBorrow a b).2 = true ↔ (a.toNat : Int) - (b.toNat : Int) < 0)) ∧
  subBorrow 3 5 = (254, true) ∧ subBorrow 5 3 = (2, false) ∧ subBorrow 0 0 = (0, false) ∧
  ∀ (x : Byte) (s : State), ∃ t, exec (.rssb x) s = .next t ∧ t.borrow = (subBorrow (memRead s x) s.acc).2

/-- R63. The increment is modulo 256, its overflow is true exactly for 255, equivalently when the result is 0; it leaves BORROW
as it was. -/
def Obligations.IncrementReportsOverflow : Prop :=
  (∀ v : Byte, (inc8 v).1.toNat = (v.toNat + 1) % 256 ∧ ((inc8 v).2 = true ↔ v = 255#8) ∧
    ((inc8 v).2 = true ↔ (inc8 v).1 = 0#8)) ∧
  inc8 0 = (1, false) ∧ inc8 254 = (255, false) ∧ inc8 255 = (0, true) ∧
  ∀ s : State, (incPc s).1.borrow = s.borrow

/-- The laws of the subtraction (R62, derived from R60), the adder identity among them. -/
def Obligations.SubtractionLaws : Prop :=
  ∀ a b : Byte,
    subBorrow a a = (0#8, false) ∧ subBorrow a 0#8 = (a, false) ∧
    (b ≠ 0#8 → (subBorrow 0#8 b).1.toNat = 256 - b.toNat ∧ (subBorrow 0#8 b).2 = true) ∧
    (b.toNat < a.toNat → (subBorrow a b).1.toNat = a.toNat - b.toNat ∧ (subBorrow a b).2 = false) ∧
    (a.toNat < b.toNat → (subBorrow a b).1.toNat = a.toNat + 256 - b.toNat ∧ (subBorrow a b).2 = true) ∧
    ((subBorrow a b).1 = 0#8 → (subBorrow a b).2 = false) ∧
    (subBorrow a b).1.toNat = (a.toNat + (255 - b.toNat) + 1) % 256 ∧
    ((subBorrow a b).2 = false ↔ 256 ≤ a.toNat + (255 - b.toNat) + 1)

/-- In one cycle at most one of the two increments overflows (R64, derived from R63 and R70). -/
def Obligations.AtMostOneIncrementOverflows : Prop :=
  ∀ (b : Bool) (s : State), ¬ ((advancePc b s).2.overflow1 = true ∧ (advancePc b s).2.overflow2 = true)

/-! ### Encoding -/

/-- Decoding the encoding of an instruction gives it back, whatever bytes follow, and an instruction is one byte (R50, R51). -/
def Obligations.DecodeOfEncodeIsTheInstruction : Prop :=
  ∀ (i : Instr) (rest : List Byte), i.wellFormed = true → decode (encode i ++ rest) = .ok (i, rest) ∧ (encode i).length = 1

/-- Every byte is the instruction RSSB with that byte as operand address, and encodes back to that byte (R50, R53). -/
def Obligations.EveryByteIsAnInstruction : Prop :=
  ∀ (w : Byte) (rest : List Byte),
    decode (w :: rest) = .ok (.rssb w, rest) ∧ encode (decodeWord w) = [w] ∧ (decodeWord w).wellFormed = true ∧
    decodeTableWord 8 w.toNat = some (.rssb w)

/-- Words written out in 95_test_vectors.md section 7, programs P1 and P4. -/
def Obligations.SpecWordsDecode : Prop :=
  decode [0x01] = .ok (.rssb 1, []) ∧ decode [0x09] = .ok (.rssb 9, []) ∧ decode [0x0A] = .ok (.rssb 10, []) ∧
    decode [0x14] = .ok (.rssb 20, []) ∧ decode [0x00] = .ok (.rssb 0, [])

/-! ### The step -/

/-- When the byte the PC points at decodes to a well-formed instruction, the step of a running core is that instruction. The
step adds nothing around it: the instruction's own meaning moves the PC and evaluates the halt predicates (R52, R91). -/
def Obligations.StepRunsDecodedInstruction : Prop :=
  ∀ (s : State) (i : Instr), s.run = .running → decode [memRead s (memRead s 0#8)] = .ok (i, []) → i.wellFormed = true →
    step s = exec i s

/-- No step of a running core faults or is refused: it has a next state, Running or Halted (R8). The second clause says of every
state that its step is safe; that a halted core's step answers the fault `halted` is the model's reading (log entry 1, DEDUCED
from R98). -/
def Obligations.RunningCoreNeverFaults : Prop :=
  (∀ s : State, s.run = .running → ∃ t, step s = .next t ∧ (t.run = .running ∨ t.run = .halted)) ∧
    ∀ s : State, SafeOutcome (step s)

/-- R90. Running is initial. From Running a completed cycle leads to Halted exactly when a halt predicate holds, else to Running; nothing leaves
Halted. The wrap of an increment is written on the PC the increments start from: the result for operand address 0, else the
old PC. -/
def Obligations.RunStateMachine : Prop :=
  State.reset.run = .running ∧ (∀ image : Image, (init image).run = .running) ∧
  ∀ s : State,
    (s.run = .running →
      let p := memRead s 0#8
      let x := memRead s p
      let r := memRead s x - memRead s 1#8
      let b := decide ((memRead s x).toNat < (memRead s 1#8).toNat)
      let base := if x = 0#8 then r else p
      ∃ t, step s = .next t ∧
        (t.run = .halted ↔
          (base = 255#8 ∨ (b = true ∧ base = 254#8)) ∨ (t.pc = 0#8 ∧ t.acc = 0#8) ∨ (t.pc = 2#8 ∧ t.acc = 1#8))) ∧
    (s.run = .halted → ∀ t, step s ≠ .next t)

/-- R70, R95. The whole instruction, for every operand address and every state: it completes, with the values the seven steps
give every cell and register, and the halt evaluation's RUN and CAUSE. In a running core the operand address is the word
fetched through the PC. -/
def Obligations.RssbCycleResult : Prop :=
  ∀ (s : State) (x : Byte),
    (s.run = .running → x = memRead s (memRead s 0#8) → step s = exec (.rssb x) s) ∧
    let p := memRead s 0#8
    let a := memRead s 1#8
    let xv := memRead s x
    let r := xv - a
    let b := decide (xv.toNat < a.toNat)
    let base := if x = 0#8 then r else p
    ∃ t, exec (.rssb x) s = .next t ∧
      memRead t 1#8 = r ∧
      (x ≠ 0#8 → x ≠ 2#8 → memRead t x = r) ∧
      memRead t 2#8 = 0#8 ∧
      memRead t 0#8 = base + (if b then 2#8 else 1#8) ∧
      (∀ y, y ≠ 0#8 → y ≠ 1#8 → y ≠ x → memRead t y = memRead s y) ∧
      t.mar = x ∧ t.mdr = xv ∧ t.borrow = b ∧
      (t.run, t.cause) =
        if base = 255#8 ∨ (b = true ∧ base = 254#8) then (.halted, .pcOverflow)
        else if memRead t 0#8 = 0#8 ∧ memRead t 1#8 = 0#8 then (.halted, .zeroLoop)
        else if memRead t 0#8 = 2#8 ∧ memRead t 1#8 = 1#8 then (.halted, .oneLoop)
        else (s.run, s.cause)

/-- The frame of RSSB (R83, derived from R70): besides the PC, A, MAR, MDR and BORROW, which every cycle writes, only the cell
at the operand's effective address changes, and none when that is address 2; RUN and CAUSE change only by a halt. -/
def Obligations.RssbFrame : Prop :=
  ∀ (x : Byte) (s t : State), exec (.rssb x) s = .next t →
    (∀ y, y ≠ 0#8 → y ≠ 1#8 → y ≠ operandAddress x → memRead t y = memRead s y) ∧
    (operandAddress x = 2#8 → ∀ y, y ≠ 0#8 → y ≠ 1#8 → memRead t y = memRead s y) ∧
    (s.pc ≠ 0#8 → s.pc ≠ 1#8 → s.pc ≠ operandAddress x → memRead t s.pc = memRead s s.pc) ∧
    ((t.run = s.run ∧ t.cause = s.cause) ∨ (t.run = .halted ∧ t.cause ≠ .none))

/-! ### Corner cases of the cycle -/

/-- Operand address 0, a jump (R73, derived from R70). -/
def Obligations.OperandZeroJumps : Prop :=
  ∀ s : State, s.run = .running → fetchWord s = 0#8 →
    let p := memRead s 0#8
    let a := memRead s 1#8
    let r := p - a
    let b := decide (p.toNat < a.toNat)
    ∃ t, step s = .next t ∧ t.acc = r ∧ t.pc = r + (if b then 2#8 else 1#8) ∧ t.mar = 0#8 ∧ t.mdr = p ∧ t.borrow = b ∧
      (∀ y, y ≠ 0#8 → y ≠ 1#8 → memRead t y = memRead s y) ∧
      (r = 255#8 → t.run = .halted ∧ t.cause = .pcOverflow ∧ t.pc = if b then 1#8 else 0#8) ∧
      (r = 254#8 → b = true → t.run = .halted ∧ t.cause = .pcOverflow ∧ t.pc = 0#8) ∧
      (r = 1#8 → b = false → t.run = .halted ∧ t.cause = .oneLoop ∧ t.pc = 2#8 ∧ t.acc = 1#8)

/-- Operand address 1 clears A and never skips (R74, derived from R70). -/
def Obligations.OperandOneClearsA : Prop :=
  ∀ s : State, s.run = .running → fetchWord s = 1#8 →
    ∃ t, step s = .next t ∧ t.acc = 0#8 ∧ t.pc = s.pc + 1#8 ∧ t.mar = 1#8 ∧ t.mdr = s.acc ∧ t.borrow = false ∧
      ∀ y, y ≠ 0#8 → y ≠ 1#8 → memRead t y = memRead s y

/-- Operand address 2 negates A and stores nothing (R75, derived from R70). -/
def Obligations.OperandTwoNegatesA : Prop :=
  ∀ s : State, s.run = .running → fetchWord s = 2#8 →
    ∃ t, step s = .next t ∧ t.acc = 0#8 - s.acc ∧ t.pc = s.pc + (if s.acc = 0#8 then 1#8 else 2#8) ∧ t.mar = 2#8 ∧ t.mdr = 0#8 ∧
      (t.borrow = true ↔ s.acc ≠ 0#8) ∧ memRead t 2#8 = 0#8 ∧ (∀ y, y ≠ 0#8 → y ≠ 1#8 → memRead t y = memRead s y) ∧
      (s.acc = 0#8 → t.acc = s.acc) ∧ (s.acc = 128#8 → t.acc = 128#8 ∧ t.borrow = true)

/-- An instruction that names its own cell rewrites itself; the PC still advances from its address (R79, derived from R70). -/
def Obligations.OperandNamesItsOwnCell : Prop :=
  ∀ s : State, s.run = .running → 3 ≤ s.pc.toNat → fetchWord s = s.pc →
    let b := decide (s.pc.toNat < s.acc.toNat)
    ∃ t, step s = .next t ∧ t.acc = s.pc - s.acc ∧ memRead t s.pc = s.pc - s.acc ∧
      t.pc = s.pc + (if b then 2#8 else 1#8) ∧ t.mar = s.pc ∧ t.mdr = s.pc ∧ t.borrow = b

/-- The PC points at itself (R76, derived from R70): a jump with operand value 0. -/
def Obligations.ExecutingCellZero : Prop :=
  ∀ s : State, s.run = .running → s.pc = 0#8 →
    ∃ t, step s = .next t ∧ t.acc = 0#8 - s.acc ∧ t.pc = (0#8 - s.acc) + (if s.acc = 0#8 then 1#8 else 2#8) ∧ t.mar = 0#8 ∧
      t.mdr = 0#8 ∧ (t.borrow = true ↔ s.acc ≠ 0#8) ∧
      (s.acc = 0#8 → t.pc = 1#8 ∧ t.acc = 0#8 ∧ t.run = .running) ∧
      (s.acc = 1#8 → t.run = .halted ∧ t.cause = .pcOverflow ∧ t.pc = 1#8) ∧
      (s.acc = 2#8 → t.run = .halted ∧ t.cause = .pcOverflow ∧ t.pc = 0#8)

/-- The PC points at the accumulator (R77, derived from R70): the operand address is A's value. -/
def Obligations.ExecutingTheAccumulator : Prop :=
  ∀ s : State, s.run = .running → s.pc = 1#8 →
    let a := s.acc
    let r := memRead s a - a
    let b := decide ((memRead s a).toNat < a.toNat)
    ∃ t, step s = .next t ∧ t.acc = r ∧ t.mar = a ∧ t.mdr = memRead s a ∧ t.borrow = b ∧
      (a ≠ 0#8 → t.pc = if b then 3#8 else 2#8) ∧
      (a = 0#8 → t.pc = 2#8 ∧ t.acc = 1#8 ∧ t.run = .halted ∧ t.cause = .oneLoop) ∧
      (a = 1#8 → t.pc = 2#8 ∧ t.acc = 0#8 ∧ t.run = .running) ∧
      (a = 2#8 → t.pc = 3#8 ∧ t.acc = 254#8 ∧ t.borrow = true) ∧
      (3 ≤ a.toNat → memRead t a = r)

/-- The PC points at the zero cell (R78, derived from R70): a jump with operand value 2. -/
def Obligations.ExecutingTheZeroCell : Prop :=
  ∀ s : State, s.run = .running → s.pc = 2#8 →
    let r := 2#8 - s.acc
    let b := decide (2 < s.acc.toNat)
    ∃ t, step s = .next t ∧ t.acc = r ∧ t.pc = r + (if b then 2#8 else 1#8) ∧ t.mar = 0#8 ∧ t.mdr = 2#8 ∧ t.borrow = b ∧
      (s.acc = 0#8 → t.acc = 2#8 ∧ t.pc = 3#8) ∧
      (s.acc = 1#8 → t.acc = 1#8 ∧ t.pc = 2#8 ∧ ∀ y, memRead t y = memRead s y) ∧
      (s.acc = 2#8 → t.acc = 0#8 ∧ t.pc = 1#8) ∧
      (s.acc = 3#8 → t.run = .halted ∧ t.cause = .pcOverflow ∧ t.pc = 1#8) ∧
      (s.acc = 4#8 → t.run = .halted ∧ t.cause = .pcOverflow ∧ t.pc = 0#8)

/-- The top of the address space (R80, derived from R70 and R92): a non-jump at 255 always wraps, one at 254 exactly when it
borrows, and the cycle's writes are all performed before the halt. A jump at 255 wraps only by its own result. -/
def Obligations.CodeCannotRunPastTheTop : Prop :=
  ∀ s : State, s.run = .running →
    let x := fetchWord s
    let r := memRead s x - s.acc
    let b := decide ((memRead s x).toNat < s.acc.toNat)
    ∃ t, step s = .next t ∧
      t.acc = r ∧ t.mar = x ∧ t.mdr = memRead s x ∧ t.borrow = b ∧ (x ≠ 0#8 → x ≠ 2#8 → memRead t x = r) ∧
      (x ≠ 0#8 → s.pc = 255#8 → t.run = .halted ∧ t.cause = .pcOverflow ∧ t.pc = if b then 1#8 else 0#8) ∧
      (x ≠ 0#8 → s.pc = 254#8 → b = true → t.run = .halted ∧ t.cause = .pcOverflow ∧ t.pc = 0#8) ∧
      (x ≠ 0#8 → s.pc = 254#8 → b = false → t.run = .running ∧ t.pc = 255#8) ∧
      (x = 0#8 → s.pc = 255#8 → r ≠ 255#8 → ¬ (r = 254#8 ∧ b = true) → t.run = .halted → t.pc = 2#8 ∧ t.acc = 1#8)

/-- R72. The only control transfers: the skip, and the jump through operand address 0; a wrap halts the core instead. -/
def Obligations.SkipAndJumpAreTheOnlyTransfers : Prop :=
  ∀ s : State, s.run = .running →
    let p := memRead s 0#8
    let x := memRead s p
    let r := memRead s x - memRead s 1#8
    let b := decide ((memRead s x).toNat < (memRead s 1#8).toNat)
    ∃ t, step s = .next t ∧
      (x ≠ 0#8 → t.pc = if b then p + 2#8 else p + 1#8) ∧
      (x = 0#8 → t.pc = if b then r + 2#8 else r + 1#8) ∧
      ((if x = 0#8 then r else p) = 255#8 ∨ (b = true ∧ (if x = 0#8 then r else p) = 254#8) →
        t.run = .halted ∧ t.cause = .pcOverflow)

/-- The fixed point (R84, derived from R70), with the halt R93 gives it: PC = 2 and A = 1 change nothing but the diagnostics,
RUN and CAUSE. PC = 0 and A = 0 is no fixed point. -/
def Obligations.OneLoopStateIsAFixedPoint : Prop :=
  (∀ s : State, Memory.wf s.mem → s.run = .running → s.pc = 2#8 → s.acc = 1#8 →
    step s = .next { s with mar := 0#8, mdr := 2#8, borrow := false, run := .halted, cause := .oneLoop }) ∧
  ∀ s : State, s.run = .running → s.pc = 0#8 → s.acc = 0#8 → ∃ t, step s = .next t ∧ t.pc = 1#8 ∧ t.acc = 0#8

/-- R81. MAR and MDR show the operand address and the operand value from before the cycle's writes, in the halting cycle too,
and have no effect on any step. -/
def Obligations.DiagnosticsShowFetchTimeValues : Prop :=
  ∀ s : State,
    (s.run = .running → ∃ t, step s = .next t ∧ t.mar = fetchWord s ∧ t.mdr = memRead s (fetchWord s) ∧
      (3 ≤ (fetchWord s).toNat → memRead t (fetchWord s) = memRead s (fetchWord s) - s.acc) ∧
      (fetchWord s = 0#8 → t.mdr = s.pc) ∧ (fetchWord s = 1#8 → t.mdr = s.acc)) ∧
    ∀ mar mdr : Byte, step { s with mar := mar, mdr := mdr } = step s

/-- R17. BORROW is true exactly when the last cycle's subtraction went below zero; it decides the second increment within its
cycle; no later cycle reads it; no other operation writes it; the snapshot reports it. -/
def Obligations.BorrowRecordsTheLastSubtraction : Prop :=
  ∀ s : State,
    (s.run = .running →
      let x := fetchWord s
      ∃ t, step s = .next t ∧
        (t.borrow = true ↔ (memRead s x).toNat < s.acc.toNat) ∧
        t.pc = (if x = 0#8 then memRead s x - s.acc else s.pc) + (if t.borrow then 2#8 else 1#8)) ∧
    (∀ b : Bool, step { s with borrow := b } = step s) ∧
    (∀ a v : Byte, (memWrite s a v).borrow = s.borrow) ∧ (∀ image : Image, (load image s).borrow = s.borrow) ∧
    (∀ sig : PcSignals, (haltEval sig s).borrow = s.borrow) ∧ (incPc s).1.borrow = s.borrow ∧
    (snapshotOf s).borrow = s.borrow

/-- A write of one cycle is seen by the very next fetch (R43), in the operand cell and in A. -/
def Obligations.NextFetchSeesTheWrite : Prop :=
  ∀ s : State, s.run = .running →
    let x := fetchWord s
    let r := memRead s x - s.acc
    ∃ t, step s = .next t ∧
      (3 ≤ x.toNat → t.pc = x → t.run = .running → step t = exec (.rssb r) t) ∧
      (t.pc = 1#8 → t.run = .running → step t = exec (.rssb r) t) ∧
      (3 ≤ t.pc.toNat → t.pc ≠ x → t.run = .running → step t = exec (.rssb (memRead s t.pc)) t)

/-! ### Halts -/

/-- R95. The halt evaluation: first match wins, and only RUN and CAUSE change. -/
def Obligations.HaltEvaluationOrder : Prop :=
  ∀ (sig : PcSignals) (s : State),
    (sig.overflow1 = true ∨ sig.overflow2 = true →
      haltEval sig s = { s with run := .halted, cause := .pcOverflow }) ∧
    (sig.overflow1 = false → sig.overflow2 = false →
      (s.pc = 0#8 → s.acc = 0#8 → haltEval sig s = { s with run := .halted, cause := .zeroLoop }) ∧
      (s.pc = 2#8 → s.acc = 1#8 → haltEval sig s = { s with run := .halted, cause := .oneLoop }) ∧
      (¬ (s.pc = 0#8 ∧ s.acc = 0#8) → ¬ (s.pc = 2#8 ∧ s.acc = 1#8) → haltEval sig s = s))

/-- PcOverflow is the cause exactly when an increment of this cycle wrapped (R92, R101, derived in part), and it leaves the PC
0, or 1 when the first increment wrapped and a borrow added a second. -/
def Obligations.OverflowHaltExactlyOnWrap : Prop :=
  ∀ s : State, CoreInv s → s.run = .running →
    let p := memRead s 0#8
    let x := memRead s p
    let r := memRead s x - memRead s 1#8
    let b := decide ((memRead s x).toNat < (memRead s 1#8).toNat)
    let base := if x = 0#8 then r else p
    ∃ t, step s = .next t ∧
      (t.cause = .pcOverflow ↔ base = 255#8 ∨ (b = true ∧ base = 254#8)) ∧
      (t.cause = .pcOverflow → t.run = .halted) ∧
      (base = 255#8 → t.pc = if b then 1#8 else 0#8) ∧
      (b = true → base = 254#8 → t.pc = 0#8)

/-- ZeroLoop is never the reported cause: a PC of 0 after a cycle is the mark of a wrap (R97, derived from R95, R63 and R70). -/
def Obligations.ZeroLoopIsNeverReported : Prop :=
  ∀ s : State, CoreInv s → s.run = .running →
    ∃ t, step s = .next t ∧ t.cause ≠ .zeroLoop ∧ (t.pc = 0#8 → t.run = .halted ∧ t.cause = .pcOverflow)

/-- OneLoop is the cause exactly when PC = 2 and A = 1 after the cycle (R101, derived from R92, R93 and R96); the cycle maps that
state to itself, and the core stops there. It is reached by a jump, or an instruction executed at PC = 1, whose result is 1
without a borrow (R93); that these are the only ways is an inference from R70, which R93 does not state. -/
def Obligations.OneLoopHaltExactlyAtPcTwoAccOne : Prop :=
  ∀ s : State, CoreInv s → s.run = .running →
    let x := fetchWord s
    let r := memRead s x - s.acc
    ∃ t, step s = .next t ∧
      (t.cause = .oneLoop ↔ t.pc = 2#8 ∧ t.acc = 1#8) ∧
      (t.cause = .oneLoop → t.run = .halted) ∧
      (s.pc = 2#8 → s.acc = 1#8 → t.cause = .oneLoop ∧ ∀ y, memRead t y = memRead s y) ∧
      (t.cause = .oneLoop ↔ r = 1#8 ∧ s.acc.toNat ≤ (memRead s x).toNat ∧ (x = 0#8 ∨ s.pc = 1#8))

/-- R94. The predicates are evaluated after a cycle only: every run executes at least one. An image that starts at PC = 2, A = 1
halts after one cycle; one that starts at PC = 0, A = 0 goes on to PC = 1, A = 0. -/
def Obligations.HaltIsCheckedOnlyAfterACycle : Prop :=
  ∀ image : Image,
    (init image).run = .running ∧ (∃ t, step (init image) = .next t) ∧
    (image[0] = 2#8 → image[1] = 1#8 →
      (runFor 1 (init image)).run = .halted ∧ (runFor 1 (init image)).cause = .oneLoop) ∧
    (image[0] = 0#8 → image[1] = 0#8 →
      (runFor 1 (init image)).run = .running ∧ (runFor 1 (init image)).pc = 1#8 ∧ (runFor 1 (init image)).acc = 0#8)

/-- No spurious halt (R103, derived from R95): while no increment wraps and (PC, A) is neither (0, 0) nor (2, 1) after any of the
first `n` cycles, the core is still Running after `n` cycles. -/
def Obligations.NoSpuriousHalt : Prop :=
  ∀ (n : Nat) (s : State), s.run = .running →
    (∀ k, k < n →
      (ClosedForm.valuesOf (ClosedForm.viewOf (runFor k s))).overflow1 = false ∧
      (ClosedForm.valuesOf (ClosedForm.viewOf (runFor k s))).overflow2 = false ∧
      ¬ ((runFor (k + 1) s).pc = 0#8 ∧ (runFor (k + 1) s).acc = 0#8) ∧
      ¬ ((runFor (k + 1) s).pc = 2#8 ∧ (runFor (k + 1) s).acc = 1#8)) →
    (runFor n s).run = .running

/-! ### Runs -/

/-- A run returns at most one snapshot, with one cause (R104). -/
def Obligations.RunReturnsAtMostOneSnapshot : Prop :=
  ∀ (s : State) (u v : Snapshot), RunReturns s u → RunReturns s v → u = v

/-- A run returns a snapshot, or it is an infinite sequence of cycles that returns none: every state of it is Running, and after
every number of cycles the step answers a next state, which is the next state of the run (R102). -/
def Obligations.RunReturnsOrGoesOnForever : Prop :=
  ∀ s : State,
    ((∃ u, RunReturns s u) ∧ ¬ RunsForever s) ∨ (RunsForever s ∧ (∀ n, ∃ t, step (runFor n s) = .next t ∧ runFor (n + 1) s = t) ∧ ∀ u, ¬ RunReturns s u)

/-- R98. A halted core performs no further cycle: it has no step, and every later state of its run is the state of the halt. -/
def Obligations.HaltedIsTerminal : Prop :=
  ∀ s : State, s.run = .halted → (∀ t, step s ≠ .next t) ∧ ∀ n, runFor n s = s

/-- The values of MAR, MDR and BORROW before the first cycle cannot be seen in a snapshot (R22, derived from R70 and R94), so the
spec's decision D3 (log entry 3) is invisible there. -/
def Obligations.InitialDiagnosticsAreInvisible : Prop :=
  ∀ (s : State) (mar mdr : Byte) (b : Bool) (u : Snapshot), s.run = .running →
    (RunReturns { s with mar := mar, mdr := mdr, borrow := b } u ↔ RunReturns s u)

/-- The snapshot's fields (R100 and the spec's decisions D4 and D15): 256 cells read through the read rule, entry 2 is 0, and a
running core shows nothing. -/
def Obligations.SnapshotShowsTheHaltedState : Prop :=
  ∀ s : State,
    (s.run = .running → observe s = none) ∧
    (s.run = .halted → ∃ u, observe s = some u ∧ u.pc = s.pc ∧ u.a = s.acc ∧ u.z = 0#8 ∧ u.mar = s.mar ∧ u.mdr = s.mdr ∧
      u.borrow = s.borrow ∧ u.cause = s.cause ∧ u.mem.length = 256 ∧ (∀ a : Byte, u.mem[a.toNat]? = some (memRead s a)) ∧
      u.mem[0]? = some u.pc ∧ u.mem[1]? = some u.a ∧ u.mem[2]? = some 0#8)

/-! ### Invariants and refinement -/

/-- The invariant holds after reset. -/
def Obligations.ResetMeetsTheInvariant : Prop :=
  CoreInv State.reset

/-- Every step keeps the invariant (R24, R97). -/
def Obligations.StepKeepsTheInvariant : Prop :=
  ∀ s t : State, CoreInv s → step s = .next t → CoreInv t

/-- Every state of every run from a loaded image meets the invariant and is safe (R24, R8). The one step that answers no next
state is that of a halted core, with the fault `halted` (log entry 1, DEDUCED from R98). -/
def Obligations.EveryRunMeetsTheInvariant : Prop :=
  ∀ (image : Image) (n : Nat), CoreInv (runFor n (init image)) ∧ SafeRun (init image)

/-- The step over the list memory is the closed form of the cycle (R71, derived from R70) over a memory that is a plain function
(R41), with R95 on top, for every running state; and so is the state after every number of cycles. -/
def Obligations.MachineRefinesTheClosedForm : Prop :=
  (∀ s : State, s.run = .running →
    ∃ t, step s = .next t ∧ ClosedForm.viewOf t = ClosedForm.cycleView (ClosedForm.viewOf s)) ∧
  ∀ (n : Nat) (s : State), ClosedForm.viewOf (runFor n s) = ClosedForm.runView n (ClosedForm.viewOf s)

/-- The model's own placing of a word (log entry 9): the very next step runs the instruction placed. -/
def Obligations.PlacedWordRunsNext : Prop :=
  ∀ (s : State) (w : Byte),
    ∃ t, step (s.withFetchWord 8 w.toNat) = .next t ∧ exec (.rssb w) (s.withFetchWord 8 w.toNat) = .next t
end

