-- ==== Sys2Proof/Laws/Memory.lean ====
section
/-! SUPPORT. The laws of the memory as data: what a store changes, and that the store and the load keep the canonical form. -/

namespace Sys2Proof.Machine

theorem cellAt_filter_same (m : Memory) (k : Nat) :
    Memory.cellAt (m.filter (fun c => c.1 ≠ k)) k = Memory.unlisted := by
  induction m with
  | nil => rfl
  | cons c rest ih =>
    by_cases h : c.1 = k
    · simpa [h] using ih
    · simpa [h, Memory.cellAt] using ih

theorem cellAt_filter_other (m : Memory) {k j : Nat} (hj : j ≠ k) :
    Memory.cellAt (m.filter (fun c => c.1 ≠ k)) j = Memory.cellAt m j := by
  induction m with
  | nil => rfl
  | cons c rest ih =>
    by_cases h : c.1 = k
    · have hne : ¬ k = j := fun e => hj e.symm
      simpa [h, Memory.cellAt, hne] using ih
    · by_cases hc : c.1 = j
      · simp [Memory.cellAt, hc, hj]
      · simpa [h, Memory.cellAt, hc] using ih

theorem cellAt_insertCell_other (c : Host.Cell) (m : Memory) {j : Nat} (hj : j ≠ c.1) :
    Memory.cellAt (Memory.insertCell c m) j = Memory.cellAt m j := by
  have hne : ¬ c.1 = j := fun e => hj e.symm
  induction m with
  | nil => simp [Memory.insertCell, Memory.cellAt, hne]
  | cons d rest ih =>
    by_cases h : c.1 < d.1
    · simp [Memory.insertCell, h, Memory.cellAt, hne]
    · simp [Memory.insertCell, h, Memory.cellAt, ih]

theorem cellAt_insertCell_same (c : Host.Cell) (m : Memory) (hm : ∀ d ∈ m, d.1 ≠ c.1) :
    Memory.cellAt (Memory.insertCell c m) c.1 = c.2 := by
  induction m with
  | nil => simp [Memory.insertCell, Memory.cellAt]
  | cons d rest ih =>
    by_cases h : c.1 < d.1
    · simp [Memory.insertCell, h, Memory.cellAt]
    · have hd : d.1 ≠ c.1 := hm d (by simp)
      simpa [Memory.insertCell, h, Memory.cellAt, hd] using ih (fun e he => hm e (by simp [he]))

/-- A read after a store to the same address gives the value stored. -/
theorem cellAt_store_same (m : Memory) (k : Nat) (v : Byte) :
    Memory.cellAt (Memory.store m k v) k = v := by
  unfold Memory.store
  split
  · rename_i h
    rw [cellAt_filter_same, h]
  · exact cellAt_insertCell_same (k, v) _ (fun d hd => by simpa using (List.mem_filter.mp hd).2)

/-- A store leaves every other address as it was. -/
theorem cellAt_store_other (m : Memory) {k j : Nat} (v : Byte) (hj : j ≠ k) :
    Memory.cellAt (Memory.store m k v) j = Memory.cellAt m j := by
  unfold Memory.store
  split
  · exact cellAt_filter_other m hj
  · rw [cellAt_insertCell_other (k, v) _ hj, cellAt_filter_other m hj]

theorem mem_insertCell {c d : Host.Cell} {m : Memory} (h : d ∈ Memory.insertCell c m) : d = c ∨ d ∈ m := by
  induction m with
  | nil => simpa [Memory.insertCell] using h
  | cons e rest ih =>
    by_cases hlt : c.1 < e.1
    · simpa [Memory.insertCell, hlt] using h
    · rw [Memory.insertCell, if_neg hlt, List.mem_cons] at h
      rcases h with rfl | h
      · exact .inr (by simp)
      · exact (ih h).imp_right (fun hm => by simp [hm])

theorem rising_insertCell (c : Host.Cell) (m : Memory) (hm : ∀ d ∈ m, d.1 ≠ c.1)
    (h : List.Pairwise (fun c d => c.1 < d.1) m) :
    List.Pairwise (fun c d => c.1 < d.1) (Memory.insertCell c m) := by
  induction m with
  | nil => simp [Memory.insertCell]
  | cons e rest ih =>
    obtain ⟨he, hrest⟩ := List.pairwise_cons.mp h
    by_cases hlt : c.1 < e.1
    · rw [Memory.insertCell, if_pos hlt]
      refine List.pairwise_cons.mpr ⟨fun d hd => ?_, h⟩
      rcases List.mem_cons.mp hd with rfl | hd
      · exact hlt
      · exact lt_trans hlt (he d hd)
    · rw [Memory.insertCell, if_neg hlt]
      refine List.pairwise_cons.mpr ⟨fun d hd => ?_, ih (fun d hd => hm d (by simp [hd])) hrest⟩
      rcases mem_insertCell hd with rfl | hd
      · exact lt_of_le_of_ne (not_lt.mp hlt) (hm e (by simp))
      · exact he d hd

/-- A store to an address that has a storage cell keeps the canonical form. -/
theorem store_wf {m : Memory} (hm : Memory.wf m) {k : Nat} (v : Byte) (hk : k < Config.cellCount)
    (hz : k ≠ Config.zeroAddr.toNat) : Memory.wf (Memory.store m k v) := by
  obtain ⟨hr, he⟩ := hm
  have hfilter : List.Pairwise (fun c d => c.1 < d.1) (m.filter (fun c => c.1 ≠ k)) := hr.filter _
  unfold Memory.store
  split
  · exact ⟨hfilter, fun c hc => he c (List.mem_filter.mp hc).1⟩
  · rename_i hv
    refine ⟨rising_insertCell _ _ (fun d hd => by simpa using (List.mem_filter.mp hd).2) hfilter, fun c hc => ?_⟩
    rcases mem_insertCell hc with rfl | hc
    · exact ⟨hv, hk, hz⟩
    · exact he c (List.mem_filter.mp hc).1

theorem mem_ofBytes {k : Nat} {bytes : List Byte} {c : Host.Cell} (h : c ∈ Memory.ofBytes k bytes) :
    c.2 ≠ Memory.unlisted ∧ k ≤ c.1 ∧ c.1 < k + bytes.length ∧ c.1 ≠ Config.zeroAddr.toNat := by
  induction bytes generalizing k with
  | nil => simp [Memory.ofBytes] at h
  | cons b rest ih =>
    rw [Memory.ofBytes] at h
    split at h
    · obtain ⟨h1, h2, h3, h4⟩ := ih h
      exact ⟨h1, by omega, by simp only [List.length_cons]; omega, h4⟩
    · rename_i hk
      push Not at hk
      rcases List.mem_cons.mp h with rfl | h
      · exact ⟨hk.2, le_refl _, by simp, hk.1⟩
      · obtain ⟨h1, h2, h3, h4⟩ := ih h
        exact ⟨h1, by omega, by simp only [List.length_cons]; omega, h4⟩

theorem rising_ofBytes (k : Nat) (bytes : List Byte) :
    List.Pairwise (fun c d => c.1 < d.1) (Memory.ofBytes k bytes) := by
  induction bytes generalizing k with
  | nil => simp [Memory.ofBytes]
  | cons b rest ih =>
    rw [Memory.ofBytes]
    split
    · exact ih _
    · exact List.pairwise_cons.mpr ⟨fun d hd => (mem_ofBytes hd).2.1, ih _⟩

/-- The memory built from at most 256 bytes has the canonical form. -/
theorem ofBytes_wf {bytes : List Byte} (h : bytes.length ≤ Config.cellCount) : Memory.wf (Memory.ofBytes 0 bytes) :=
  ⟨rising_ofBytes 0 bytes, fun c hc => by
    obtain ⟨h1, -, h3, h4⟩ := mem_ofBytes hc
    exact ⟨h1, by omega, h4⟩⟩

theorem cellAt_ofBytes_below (bytes : List Byte) {k j : Nat} (h : j < k) :
    Memory.cellAt (Memory.ofBytes k bytes) j = Memory.unlisted := by
  induction bytes generalizing k with
  | nil => rfl
  | cons b rest ih =>
    rw [Memory.ofBytes]
    split
    · exact ih (by omega)
    · have hne : ¬ k = j := by omega
      simpa [Memory.cellAt, hne] using ih (k := k + 1) (by omega)

/-- What a loaded memory reads as: byte `i` of the image at address `k + i`, but for the zero cell. -/
theorem cellAt_ofBytes (bytes : List Byte) (k i : Nat) (hz : k + i ≠ Config.zeroAddr.toNat) :
    Memory.cellAt (Memory.ofBytes k bytes) (k + i) = bytes.getD i Memory.unlisted := by
  induction bytes generalizing k i with
  | nil => rfl
  | cons b rest ih =>
    rw [Memory.ofBytes]
    cases i with
    | zero =>
      split
      · rename_i h
        rcases h with h | h
        · exact absurd h hz
        · rw [h]; exact cellAt_ofBytes_below rest (by omega)
      · simp [Memory.cellAt]
    | succ i =>
      have e : k + (i + 1) = (k + 1) + i := by omega
      rw [e] at hz ⊢
      split
      · simpa using ih (k + 1) i hz
      · have hne : ¬ k = k + 1 + i := by omega
        simpa [Memory.cellAt, hne] using ih (k + 1) i hz

end Sys2Proof.Machine
end

