-- ==== Sys2Proof/Laws/State.lean ====
section
/-! SUPPORT. One lemma per field per update of the state, true by `rfl`, and the values of the fixed
addresses. Bytes are spelled `0#8` in every lemma. -/

namespace Sys2Proof.Machine

@[simp] theorem pcAddr_eq : Config.pcAddr = 0#8 := rfl
@[simp] theorem accAddr_eq : Config.accAddr = 1#8 := rfl
@[simp] theorem zeroAddr_eq : Config.zeroAddr = 2#8 := rfl

variable (s : State) (m : Memory) (mar mdr : Byte) (b : Bool) (c : HaltCause)

@[simp] theorem setMem_mem : (s.setMem m).mem = m := rfl
@[simp] theorem setMem_mar : (s.setMem m).mar = s.mar := rfl
@[simp] theorem setMem_mdr : (s.setMem m).mdr = s.mdr := rfl
@[simp] theorem setMem_borrow : (s.setMem m).borrow = s.borrow := rfl
@[simp] theorem setMem_run : (s.setMem m).run = s.run := rfl
@[simp] theorem setMem_cause : (s.setMem m).cause = s.cause := rfl

@[simp] theorem setDiagnostics_mem : (s.setDiagnostics mar mdr b).mem = s.mem := rfl
@[simp] theorem setDiagnostics_mar : (s.setDiagnostics mar mdr b).mar = mar := rfl
@[simp] theorem setDiagnostics_mdr : (s.setDiagnostics mar mdr b).mdr = mdr := rfl
@[simp] theorem setDiagnostics_borrow : (s.setDiagnostics mar mdr b).borrow = b := rfl
@[simp] theorem setDiagnostics_run : (s.setDiagnostics mar mdr b).run = s.run := rfl
@[simp] theorem setDiagnostics_cause : (s.setDiagnostics mar mdr b).cause = s.cause := rfl

@[simp] theorem setHalt_mem : (s.setHalt c).mem = s.mem := rfl
@[simp] theorem setHalt_mar : (s.setHalt c).mar = s.mar := rfl
@[simp] theorem setHalt_mdr : (s.setHalt c).mdr = s.mdr := rfl
@[simp] theorem setHalt_borrow : (s.setHalt c).borrow = s.borrow := rfl
@[simp] theorem setHalt_run : (s.setHalt c).run = .halted := rfl
@[simp] theorem setHalt_cause : (s.setHalt c).cause = c := rfl

end Sys2Proof.Machine
end

