-- ==== Sys2Proof/Laws/Ops.lean ====
section
/-! SUPPORT. One lemma for each shared operation, saying once what it does. -/

namespace Sys2Proof.Machine

@[simp] theorem memRead_zeroAddr (s : State) : memRead s 2#8 = 0#8 := rfl

/-- A read depends on the storage cells alone. -/
theorem memRead_congr {s t : State} (h : s.mem = t.mem) (a : Byte) : memRead s a = memRead t a := by
  simp only [memRead, h]

@[simp] theorem memRead_setDiagnostics (s : State) (mar mdr : Byte) (b : Bool) (a : Byte) :
    memRead (s.setDiagnostics mar mdr b) a = memRead s a := rfl

@[simp] theorem memRead_setHalt (s : State) (c : HaltCause) (a : Byte) : memRead (s.setHalt c) a = memRead s a := rfl

theorem memWrite_zeroAddr (s : State) (v : Byte) : memWrite s 2#8 v = s :=
  if_pos rfl

theorem memWrite_storage (s : State) {a : Byte} (ha : a ≠ 2#8) (v : Byte) :
    memWrite s a v = s.setMem (Memory.store s.mem a.toNat v) :=
  if_neg ha

theorem memRead_storage (s : State) {a : Byte} (ha : a ≠ 2#8) :
    memRead s a = Memory.cellAt s.mem a.toNat :=
  if_neg ha

/-- What a read gives after a write, at every pair of addresses. -/
theorem memRead_memWrite (s : State) (a v b : Byte) :
    memRead (memWrite s a v) b = if b = a ∧ a ≠ 2#8 then v else memRead s b := by
  by_cases ha : a = 2#8
  · rw [ha, memWrite_zeroAddr, if_neg (fun h => h.2 rfl)]
  by_cases hb : b = 2#8
  · rw [hb, if_neg (fun h => ha h.1.symm)]; rfl
  rw [memRead_storage _ hb, memRead_storage _ hb, memWrite_storage _ ha, setMem_mem]
  by_cases hab : b = a
  · rw [if_pos ⟨hab, ha⟩, hab, cellAt_store_same]
  · rw [if_neg (fun h => hab h.1), cellAt_store_other _ _ (fun e => hab (BitVec.eq_of_toNat_eq e))]

@[simp] theorem memWrite_mar (s : State) (a v : Byte) : (memWrite s a v).mar = s.mar := by
  unfold memWrite; split <;> rfl
@[simp] theorem memWrite_mdr (s : State) (a v : Byte) : (memWrite s a v).mdr = s.mdr := by
  unfold memWrite; split <;> rfl
@[simp] theorem memWrite_borrow (s : State) (a v : Byte) : (memWrite s a v).borrow = s.borrow := by
  unfold memWrite; split <;> rfl
@[simp] theorem memWrite_run (s : State) (a v : Byte) : (memWrite s a v).run = s.run := by
  unfold memWrite; split <;> rfl
@[simp] theorem memWrite_cause (s : State) (a v : Byte) : (memWrite s a v).cause = s.cause := by
  unfold memWrite; split <;> rfl

/-- A write keeps the canonical form of the memory. -/
theorem memWrite_wf {s : State} (h : Memory.wf s.mem) (a v : Byte) : Memory.wf (memWrite s a v).mem := by
  unfold memWrite
  split
  · exact h
  · rename_i ha
    exact store_wf h v a.isLt (fun e => ha (BitVec.eq_of_toNat_eq e))

/-- Reset memory has the canonical form. -/
theorem reset_wf : Memory.wf State.reset.mem := by decide

/-- A load leaves the canonical form. -/
theorem load_wf (image : Image) (s : State) : Memory.wf (load image s).mem :=
  ofBytes_wf (by simp)

/-- Placing a word keeps the canonical form. -/
theorem placeWord_wf {s : State} (h : Memory.wf s.mem) (w : Byte) : Memory.wf (placeWord w s).mem := by
  unfold placeWord
  split
  · exact memWrite_wf (memWrite_wf h _ _) _ _
  · exact memWrite_wf h _ _

/-- What one PC increment does to the cells. -/
theorem memRead_incPc (s : State) (a : Byte) :
    memRead (incPc s).1 a = if a = 0#8 then s.pc + 1#8 else memRead s a := by
  simp [incPc, memRead_memWrite, inc8]

/-- The PC after one increment. -/
theorem incPc_pc (s : State) : (incPc s).1.pc = s.pc + 1#8 := by
  simp [State.pc, memRead_incPc]

/-- The signal of one increment. -/
theorem incPc_overflow (s : State) : (incPc s).2 = decide (s.pc.toNat = 255) := by
  simp [incPc, inc8, overflowFlag]

/-- One increment changes the storage cells only. -/
theorem incPc_frame (s : State) :
    (incPc s).1.mar = s.mar ∧ (incPc s).1.mdr = s.mdr ∧ (incPc s).1.borrow = s.borrow ∧ (incPc s).1.run = s.run ∧
      (incPc s).1.cause = s.cause := by
  simp [incPc]

/-- What steps 5 and 6 do to the cells. -/
theorem memRead_advancePc (b : Bool) (s : State) (a : Byte) :
    memRead (advancePc b s).1 a = if a = 0#8 then s.pc + (if b then 2#8 else 1#8) else memRead s a := by
  unfold advancePc
  cases b
  · simp [memRead_incPc]
  · simp only [if_true, memRead_incPc, incPc_pc]
    split
    · rw [BitVec.add_assoc]; rfl
    · rfl

/-- The signals of steps 5 and 6, in terms of the PC they start from. -/
theorem advancePc_signals (b : Bool) (s : State) :
    (advancePc b s).2.overflow1 = decide (s.pc.toNat = 255) ∧
      (advancePc b s).2.overflow2 = (b && decide (s.pc.toNat = 254)) := by
  unfold advancePc
  cases b
  · simp [incPc_overflow]
  · simp only [if_true, incPc_overflow, incPc_pc, true_and, Bool.true_and, decide_eq_decide]
    have := s.pc.isLt
    have h1 : (1#8).toNat = 1 := rfl
    rw [BitVec.toNat_add, h1]
    omega

/-- Steps 5 and 6 change the storage cells only. -/
theorem advancePc_frame (b : Bool) (s : State) :
    (advancePc b s).1.mar = s.mar ∧ (advancePc b s).1.mdr = s.mdr ∧ (advancePc b s).1.borrow = s.borrow ∧
      (advancePc b s).1.run = s.run ∧ (advancePc b s).1.cause = s.cause := by
  cases b <;> simp [advancePc, incPc]

/-- Steps 5 and 6 keep the canonical form. -/
theorem advancePc_wf {s : State} (h : Memory.wf s.mem) (b : Bool) : Memory.wf (advancePc b s).1.mem := by
  cases b
  · exact memWrite_wf h _ _
  · exact memWrite_wf (s := (incPc s).1) (memWrite_wf h _ _) _ _

theorem pc_eq (s : State) : s.pc = memRead s 0#8 := rfl

theorem acc_eq (s : State) : s.acc = memRead s 1#8 := rfl

@[simp] theorem zeroLoopHolds_iff (s : State) : zeroLoopHolds s = true ↔ s.pc = 0#8 ∧ s.acc = 0#8 := by
  simp [zeroLoopHolds]

@[simp] theorem oneLoopHolds_iff (s : State) : oneLoopHolds s = true ↔ s.pc = 2#8 ∧ s.acc = 1#8 := by
  simp [oneLoopHolds]

/-- RUN and CAUSE after the halt evaluation. -/
theorem haltEval_run_cause (sig : PcSignals) (s : State) :
    ((haltEval sig s).run, (haltEval sig s).cause) =
      if anyOverflow sig = true then (.halted, .pcOverflow)
      else if s.pc = 0#8 ∧ s.acc = 0#8 then (.halted, .zeroLoop)
      else if s.pc = 2#8 ∧ s.acc = 1#8 then (.halted, .oneLoop)
      else (s.run, s.cause) := by
  simp only [haltEval, zeroLoopHolds_iff, oneLoopHolds_iff]
  split
  · rfl
  · split
    · rfl
    · split <;> rfl

/-- Everything the halt evaluation can do. -/
theorem haltEval_cases (sig : PcSignals) (s : State) :
    (anyOverflow sig = true ∧ haltEval sig s = s.setHalt .pcOverflow) ∨
    (anyOverflow sig = false ∧ zeroLoopHolds s = true ∧ haltEval sig s = s.setHalt .zeroLoop) ∨
    (anyOverflow sig = false ∧ zeroLoopHolds s = false ∧ oneLoopHolds s = true ∧ haltEval sig s = s.setHalt .oneLoop) ∨
    (anyOverflow sig = false ∧ zeroLoopHolds s = false ∧ oneLoopHolds s = false ∧ haltEval sig s = s) := by
  unfold haltEval
  cases anyOverflow sig <;> cases zeroLoopHolds s <;> cases oneLoopHolds s <;> simp

/-- The halt evaluation changes RUN and CAUSE only. -/
theorem haltEval_frame (sig : PcSignals) (s : State) :
    (haltEval sig s).mem = s.mem ∧ (haltEval sig s).mar = s.mar ∧ (haltEval sig s).mdr = s.mdr ∧
      (haltEval sig s).borrow = s.borrow := by
  rcases haltEval_cases sig s with ⟨-, h⟩ | ⟨-, -, h⟩ | ⟨-, -, -, h⟩ | ⟨-, -, -, h⟩ <;> simp [h]

/-- Reads after the halt evaluation are the reads before it. -/
@[simp] theorem memRead_haltEval (sig : PcSignals) (s : State) (a : Byte) : memRead (haltEval sig s) a = memRead s a :=
  memRead_congr (haltEval_frame sig s).1 a

end Sys2Proof.Machine
end

