-- ==== Sys2Proof/Laws/PerInstr.lean ====
section
/-! SUPPORT. Facts about every instruction as syntax, one lemma per constructor. -/

namespace Sys2Proof.Laws.OneCell

/-- Every instruction is well-formed and one cell long (30_encoding.md R51, R53). -/
def Statement (i : Instr) : Prop :=
  i.wellFormed = true ∧ (encode i).length = 1

theorem rssb (x : Byte) : Statement (.rssb x) :=
  ⟨rfl, rfl⟩

end Sys2Proof.Laws.OneCell
end

