-- ==== Sys2Proof/Laws/Step.lean ====
section
/-! SUPPORT. What a step can answer, and the equations of a run; later proofs cite these instead of unfolding the step. -/

namespace Sys2Proof.Machine

/-- Everything a step can do. -/
theorem step_cases (s : State) :
    (s.run = .running ∧ step s = execRssb (fetchWord s) s) ∨ (s.run = .halted ∧ step s = .fault .halted) := by
  unfold step
  cases h : s.run
  · exact .inl ⟨rfl, rfl⟩
  · exact .inr ⟨rfl, rfl⟩

/-- A run goes on from the next state. -/
theorem runFor_succ_next {s t : State} (h : step s = .next t) (n : Nat) : runFor (n + 1) s = runFor n t := by
  simp [runFor, h]

/-- The last cycle of a run of `n + 1`: when the step after `n` cycles answers a next state, that is the run's next state. -/
theorem runFor_succ_last {t : State} : ∀ (n : Nat) {s : State}, step (runFor n s) = .next t → runFor (n + 1) s = t
  | 0, _, h => by simpa [runFor] using runFor_succ_next h 0
  | n + 1, s, h => by
    obtain ⟨_, hs⟩ | ⟨_, hs⟩ := step_cases s
    · cases hx : execRssb (fetchWord s) s with
      | next u =>
        rw [hx] at hs
        rw [runFor_succ_next hs] at h ⊢
        exact runFor_succ_last n h
      | fault r => simp [runFor, hs, hx] at h
      | refused r => simp [runFor, hs, hx] at h
    · simp [runFor, hs] at h

/-- A halted core stays as it is. -/
theorem runFor_halted {s : State} (h : s.run = .halted) (n : Nat) : runFor n s = s := by
  cases n with
  | zero => rfl
  | succ n => simp [runFor, step, h, haltedStep]

/-- A byte of the image after the load. -/
theorem memRead_load (image : Image) (s : State) (a : Byte) (ha : a ≠ 2#8) :
    memRead (load image s) a = image.toList.getD a.toNat 0#8 := by
  have hz : 0 + a.toNat ≠ Config.zeroAddr.toNat := fun e => ha (BitVec.eq_of_toNat_eq (by simpa using e))
  have h := cellAt_ofBytes image.toList 0 a.toNat hz
  rw [Nat.zero_add] at h
  rw [memRead_storage _ ha]
  exact h

end Sys2Proof.Machine
end

