-- ==== Sys2Proof/Tests/Slice0.lean ====
section
/-! SUPPORT. Tests. Expected values come from the vectors of 95_test_vectors.md (A, M, V, H, L) or from the rule named beside the
test; and the witnesses, one for each statement that has hypotheses, with states that meet them. -/

namespace Sys2Proof.Machine.Tests

open Sys2Proof Sys2Proof.Machine

/-- A running core with the given PC, A and cells, every other cell 0, MAR = MDR = 0, BORROW = false (the start states of
95_test_vectors.md section 4). -/
def core (pc a : Byte) (cells : List (Byte × Byte)) : State :=
  cells.foldl (fun s c => memWrite s c.1 c.2) (memWrite (memWrite State.reset 0#8 pc) 1#8 a)

/-- The row of a single-cycle vector after its start state: x, xv, b, end PC, end A, the other cells, the cause. -/
structure Row where
  start : State
  x : Byte
  xv : Byte
  b : Bool
  pc : Byte
  a : Byte
  cells : List (Byte × Byte)
  cause : HaltCause

/-- One step from the row's start gives the row's end: all 256 cells, MAR = x, MDR = xv, BORROW = b, RUN and CAUSE. -/
def Row.holds (r : Row) : Bool :=
  match step r.start with
  | .next t =>
    decide (t = { core r.pc r.a r.cells with
      mar := r.x, mdr := r.xv, borrow := r.b, run := if r.cause = .none then .running else .halted, cause := r.cause })
  | .fault _ => false
  | .refused _ => false

/-- V1 to V11, V21, V22 without the halting V10c (section 4). -/
theorem test_vectors_running :
    [ Row.mk (core 16 3 [(16, 8), (8, 7)]) 8 7 false 17 4 [(8, 4), (16, 8)] .none,
      Row.mk (core 16 5 [(16, 8), (8, 3)]) 8 3 true 18 254 [(8, 254), (16, 8)] .none,
      Row.mk (core 16 5 [(16, 8), (8, 5)]) 8 5 false 17 0 [(8, 0), (16, 8)] .none,
      Row.mk (core 16 65 [(16, 1)]) 1 65 false 17 0 [(16, 1)] .none,
      Row.mk (core 16 5 [(16, 2)]) 2 0 true 18 251 [(16, 2)] .none,
      Row.mk (core 16 0 [(16, 2)]) 2 0 false 17 0 [(16, 2)] .none,
      Row.mk (core 48 16 [(48, 0)]) 0 48 false 33 32 [] .none,
      Row.mk (core 16 48 [(16, 0)]) 0 16 true 226 224 [] .none,
      Row.mk (core 32 1 [(32, 32)]) 32 32 false 33 31 [(32, 31)] .none,
      Row.mk (core 0 7 []) 0 0 true 251 249 [] .none,
      Row.mk (core 1 9 [(9, 12)]) 9 12 false 2 3 [(9, 3)] .none,
      Row.mk (core 1 1 []) 1 1 false 2 0 [] .none,
      Row.mk (core 2 5 []) 0 2 true 255 253 [] .none,
      Row.mk (core 254 1 [(254, 8), (8, 9)]) 8 9 false 255 8 [(8, 8), (254, 8)] .none,
      Row.mk (core 5 8 [(5, 0)]) 0 5 true 255 253 [] .none ].all Row.holds = true := by decide

/-- V10c and V12 to V20 (section 4). -/
theorem test_vectors_halting :
    [ Row.mk (core 1 0 []) 0 1 false 2 1 [] .oneLoop,
      Row.mk (core 255 1 [(255, 8), (8, 9)]) 8 9 false 0 8 [(8, 8), (255, 8)] .pcOverflow,
      Row.mk (core 255 9 [(255, 8), (8, 1)]) 8 1 true 1 248 [(8, 248), (255, 8)] .pcOverflow,
      Row.mk (core 254 9 [(254, 8), (8, 1)]) 8 1 true 0 248 [(8, 248), (254, 8)] .pcOverflow,
      Row.mk (core 255 0 [(255, 0)]) 0 255 false 0 255 [] .pcOverflow,
      Row.mk (core 5 6 [(5, 0)]) 0 5 true 1 255 [] .pcOverflow,
      Row.mk (core 5 7 [(5, 0)]) 0 5 true 0 254 [] .pcOverflow,
      Row.mk (core 255 4 [(255, 8), (8, 4)]) 8 4 false 0 0 [(8, 0), (255, 8)] .pcOverflow,
      Row.mk (core 1 5 [(5, 6)]) 5 6 false 2 1 [(5, 1)] .oneLoop,
      Row.mk (core 2 1 []) 0 2 false 2 1 [] .oneLoop ].all Row.holds = true := by decide

/-! ### The operations -/

/-- A1 to A18 (section 2). -/
theorem test_subBorrow :
    [ (0, 0, 0, false), (0, 1, 255, true), (0, 255, 1, true), (255, 0, 255, false), (255, 255, 0, false), (1, 0, 1, false),
      (1, 1, 0, false), (1, 2, 255, true), (128, 127, 1, false), (127, 128, 255, true), (128, 128, 0, false),
      (0, 128, 128, true), (200, 100, 100, false), (100, 200, 156, true), (3, 5, 254, true), (5, 3, 2, false),
      (254, 255, 255, true), (255, 254, 1, false) ].all
      (fun v : Byte × Byte × Byte × Bool => decide (subBorrow v.1 v.2.1 = (v.2.2.1, v.2.2.2))) = true := by decide

/-- A19 to A23 (section 2). -/
theorem test_inc8 :
    [ (0, 1, false), (1, 2, false), (127, 128, false), (254, 255, false), (255, 0, true) ].all
      (fun v : Byte × Byte × Bool => decide (inc8 v.1 = (v.2.1, v.2.2))) = true := by decide

/-- M1 to M4 (section 3) and S1's last instance. -/
theorem test_memory :
    memRead (memWrite State.reset 5 9) 5 = 9 ∧ memRead (memWrite State.reset 5 9) 6 = 0 ∧
      memWrite (memWrite State.reset 5 9) 2 77 = memWrite State.reset 5 9 ∧
      (memWrite State.reset 0 40).pc = 40 ∧ (memWrite State.reset 1 41).acc = 41 ∧
      memRead (memWrite State.reset 255 1) 255 = 1 := by decide

/-- H1 to H12 (section 5): the two signals, PC, A, and the cause. -/
theorem test_haltEval :
    [ (false, false, 17, 4, HaltCause.none), (true, false, 0, 8, .pcOverflow), (false, true, 0, 248, .pcOverflow),
      (true, false, 1, 248, .pcOverflow), (true, false, 0, 0, .pcOverflow), (false, false, 0, 0, .zeroLoop),
      (false, false, 2, 1, .oneLoop), (true, false, 2, 1, .pcOverflow), (false, false, 0, 1, .none),
      (false, false, 2, 0, .none), (false, false, 1, 0, .none), (false, false, 2, 2, .none) ].all
      (fun v : Bool × Bool × Byte × Byte × HaltCause =>
        decide ((haltEval { overflow1 := v.1, overflow2 := v.2.1 } (core v.2.2.1 v.2.2.2.1 [])).cause = v.2.2.2.2 ∧
          (haltEval { overflow1 := v.1, overflow2 := v.2.1 } (core v.2.2.1 v.2.2.2.1 [])).run =
            if v.2.2.2.2 = .none then .running else .halted)) = true := by decide

/-- An image whose byte `k` is `k` (M5). -/
def countingImage : Image := Vector.ofFn (fun k => BitVec.ofNat 8 k.val)

/-- M5: byte k in cell k, but for cell 2; PC = 0 and A = 1. -/
theorem test_load_m5 :
    (init countingImage).pc = 0 ∧ (init countingImage).acc = 1 ∧ memRead (init countingImage) 2 = 0 ∧
      memRead (init countingImage) 3 = 3 ∧ memRead (init countingImage) 255 = 255 := by
  simp only [State.pc, State.acc, init]
  refine ⟨?_, ?_, rfl, ?_, ?_⟩ <;> rw [memRead_load _ _ _ (by decide)] <;> simp [countingImage, List.getD] <;> rfl

/-- L2, L3: a short source is LoadError and the core stays as it was. -/
theorem test_load_short :
    imageOfSource (List.replicate 255 1#8) = none ∧
      Lifetime.start.deliver [] = .next { phase := .loadFailed, core := State.reset } := by
  refine ⟨?_, rfl⟩
  rw [imageOfSource, dif_neg (by rw [List.length_replicate]; decide)]

/-! ### Well-formedness: what each check refuses -/

theorem test_wf_source : sourceWellFormed (List.replicate 255 0#8) = false ∧ sourceWellFormed (List.replicate 256 0#8) = true := by
  simp only [sourceWellFormed, List.length_replicate]
  decide

/-- Descending, repeated, holding the unlisted value, outside the address space, at the zero cell; and a form it admits. -/
theorem test_wf_memory :
    ¬ Memory.wf [(5, 1#8), (3, 1#8)] ∧ ¬ Memory.wf [(3, 1#8), (3, 2#8)] ∧ ¬ Memory.wf [(3, 0#8)] ∧
      ¬ Memory.wf [(256, 1#8)] ∧ ¬ Memory.wf [(2, 1#8)] ∧ Memory.wf [(0, 1#8), (3, 2#8), (255, 1#8)] := by decide

/-- No instruction is ill-formed (R53): the check admits both ends of the operand's range. -/
theorem test_wf_instr : Instr.wellFormed (.rssb 0) = true ∧ Instr.wellFormed (.rssb 255) = true := by decide

/-! ### Decoding: words written out bit by bit from 30_encoding.md R50, bits 7..0 = x -/

theorem test_decode_rssb_1 : decodeTableWord 8 0b00000001 = some (.rssb 1) := by decide
theorem test_decode_rssb_20 : decodeTableWord 8 0b00010100 = some (.rssb 20) := by decide
theorem test_decode_rssb_128 : decodeTableWord 8 0b10000000 = some (.rssb 128) := by decide
theorem test_decode_rssb_255 : decodeTableWord 8 0b11111111 = some (.rssb 255) := by decide
theorem test_decode_wide_rejected : decodeTableWord 16 0x0101 = none := by decide
theorem test_decode_rest : decode [0x14, 0x01] = .ok (.rssb 20, [0x01]) := rfl
theorem test_encode : encode (.rssb 22) = [0x16] := by decide

/-- The word placed where the next step fetches runs next, from reset too (R22 leaves PC = 0 there). -/
theorem test_placed_word :
    fetchWord (State.reset.withFetchWord 8 9) = 9 ∧ fetchWord ((core 200 5 []).withFetchWord 8 255) = 255 ∧
      fetchWord ((core 2 1 []).withFetchWord 8 7) = 7 := by decide

/-! ### Witnesses: concrete states that meet the hypotheses of the statements -/

theorem witness_WriteChangesExactlyOneCell :
    ((255#8 : Byte) ≠ 2#8 ∧ memRead (memWrite (core 3 4 []) 255 7) 255 = 7) ∧ ((3#8 : Byte) ≠ 255#8) ∧
      memWrite (core 3 4 []) 2 7 = core 3 4 [] := by decide

theorem witness_EqualReadsMeanEqualMemory :
    Memory.wf (core 3 4 [(9, 1), (5, 2)]).mem ∧ Memory.wf (core 3 4 [(5, 2), (9, 1), (7, 0)]).mem ∧
      ∀ a, memRead (core 3 4 [(9, 1), (5, 2)]) a = memRead (core 3 4 [(5, 2), (9, 1), (7, 0)]) a :=
  ⟨by decide, by decide, memRead_congr (by decide)⟩

theorem witness_SourceIsCutOrRejected :
    (List.replicate 255 7#8).length < 256 ∧
      (Vector.replicate 256 7#8 : Image).toList = (List.replicate 300 7#8).take 256 ∧
      (Vector.replicate 256 7#8 : Image).toList = (List.replicate 256 7#8).take 256 := by
  rw [List.length_replicate, Vector.toList_replicate, List.take_replicate, List.take_replicate]
  exact ⟨by omega, rfl, rfl⟩

theorem witness_FailedLoadNeverRuns :
    ([] : List Byte).length < 256 ∧ (List.replicate 255 0#8).length < 256 ∧ 256 ≤ (List.replicate 256 0#8).length := by
  simp only [List.length_replicate, List.length_nil]
  decide

theorem witness_LifetimeIsResetLoadRun :
    (∃ t, step (core 16 3 [(16, 8)]) = .next t) ∧ (core 16 3 []).run = .running ∧
      ((core 16 3 []).setHalt .oneLoop).run = .halted :=
  ⟨⟨_, rfl⟩, by decide, by decide⟩

theorem witness_SubtractionLaws :
    ((1#8 : Byte) ≠ 0#8 ∧ (255#8 : Byte) ≠ 0#8) ∧ (0#8).toNat < (1#8).toNat ∧ (254#8).toNat < (255#8).toNat ∧
      (subBorrow 255 255).1 = 0#8 := by decide

theorem witness_DecodeOfEncodeIsTheInstruction : Instr.wellFormed (.rssb 255) = true := rfl

theorem witness_StepRunsDecodedInstruction :
    (core 16 3 [(16, 8)]).run = .running ∧
      decode [memRead (core 16 3 [(16, 8)]) (memRead (core 16 3 [(16, 8)]) 0#8)] = .ok (.rssb 8, []) ∧
      Instr.wellFormed (.rssb 8) = true :=
  ⟨by decide, rfl, rfl⟩

theorem witness_RunningCore : State.reset.run = .running ∧ (core 255 255 [(255, 255)]).run = .running := by decide

theorem witness_HaltedCore : ((core 2 1 []).setHalt .oneLoop).run = .halted := by decide

/-- RssbCycleResult: the running clause, and operand addresses with x ≠ 0, x ≠ 2 at both ends. -/
theorem witness_RssbCycleResult :
    (core 16 3 [(16, 3)]).run = .running ∧
      3#8 = memRead (core 16 3 [(16, 3)]) (memRead (core 16 3 [(16, 3)]) 0#8) ∧ (255#8 : Byte) ≠ 0#8 ∧ (255#8 : Byte) ≠ 2#8 := by
  decide

theorem witness_RssbFrame :
    (∃ t, exec (.rssb 8) (core 16 3 [(8, 7)]) = .next t) ∧ (∃ t, exec (.rssb 2) (core 16 3 []) = .next t) ∧
      operandAddress 2 = 2#8 ∧ (core 16 3 []).pc ≠ 0#8 ∧ (core 16 3 []).pc ≠ 1#8 ∧ (core 16 3 []).pc ≠ operandAddress 8 :=
  ⟨⟨_, rfl⟩, ⟨_, rfl⟩, by decide, by decide, by decide, by decide⟩

/-- OperandZeroJumps: plain, r = 255 without and with a borrow, r = 254 with a borrow, r = 1 without. -/
theorem witness_OperandZeroJumps :
    fetchWord (core 48 16 []) = 0 ∧
      (fetchWord (core 255 0 []) = 0 ∧ (255#8 - 0#8 : Byte) = 255#8) ∧ (fetchWord (core 5 6 []) = 0 ∧ (5#8 - 6#8 : Byte) = 255#8) ∧
      (fetchWord (core 5 7 []) = 0 ∧ (5#8 - 7#8 : Byte) = 254#8) ∧ (fetchWord (core 21 20 []) = 0 ∧ (21#8 - 20#8 : Byte) = 1#8) := by
  decide

theorem witness_OperandOneClearsA : fetchWord (core 16 65 [(16, 1)]) = 1 ∧ fetchWord (core 1 1 []) = 1 := by decide

theorem witness_OperandTwoNegatesA :
    fetchWord (core 16 5 [(16, 2)]) = 2 ∧ (fetchWord (core 16 0 [(16, 2)]) = 2 ∧ (core 16 0 [(16, 2)]).acc = 0) ∧
      (fetchWord (core 255 128 [(255, 2)]) = 2 ∧ (core 255 128 [(255, 2)]).acc = 128) := by decide

theorem witness_OperandNamesItsOwnCell :
    (3 ≤ (core 3 1 [(3, 3)]).pc.toNat ∧ fetchWord (core 3 1 [(3, 3)]) = (core 3 1 [(3, 3)]).pc) ∧
      3 ≤ (core 255 1 [(255, 255)]).pc.toNat ∧ fetchWord (core 255 1 [(255, 255)]) = (core 255 1 [(255, 255)]).pc := by decide

theorem witness_ExecutingCellZero :
    (core 0 7 []).pc = 0 ∧ (core 0 0 []).acc = 0 ∧ (core 0 1 []).acc = 1 ∧ (core 0 2 []).acc = 2 := by decide

theorem witness_ExecutingTheAccumulator :
    (core 1 255 []).pc = 1 ∧ (core 1 0 []).acc = 0 ∧ (core 1 1 []).acc = 1 ∧ (core 1 2 []).acc = 2 ∧
      3 ≤ (core 1 3 []).acc.toNat ∧ 3 ≤ (core 1 255 []).acc.toNat := by decide

theorem witness_ExecutingTheZeroCell :
    (core 2 5 []).pc = 2 ∧ (core 2 0 []).acc = 0 ∧ (core 2 1 []).acc = 1 ∧ (core 2 2 []).acc = 2 ∧ (core 2 3 []).acc = 3 ∧
      (core 2 4 []).acc = 4 := by decide

/-- CodeCannotRunPastTheTop: V12, V14, V21, and a jump at 255 with result 1. -/
theorem witness_CodeCannotRunPastTheTop :
    (fetchWord (core 255 1 [(255, 8), (8, 9)]) ≠ 0 ∧ (core 255 1 [(255, 8), (8, 9)]).pc = 255) ∧
      (fetchWord (core 254 9 [(254, 8), (8, 1)]) ≠ 0 ∧ (core 254 9 [(254, 8), (8, 1)]).pc = 254) ∧
      fetchWord (core 254 1 [(254, 8), (8, 9)]) ≠ 0 ∧
      (fetchWord (core 255 254 []) = 0 ∧ ∃ t, step (core 255 254 []) = .next t ∧ t.run = .halted) :=
  ⟨by decide, by decide, by decide, by decide, _, rfl, by decide⟩

/-- SkipAndJumpAreTheOnlyTransfers: no jump (V1), a jump (V6), a wrap at 255 (V12) and at 254 with a borrow (V14). -/
theorem witness_SkipAndJumpAreTheOnlyTransfers :
    fetchWord (core 16 3 [(16, 8), (8, 7)]) ≠ 0 ∧ fetchWord (core 48 16 []) = 0 ∧
      memRead (core 255 1 [(255, 8), (8, 9)]) 0 = 255 ∧
      (memRead (core 254 9 [(254, 8), (8, 1)]) 0 = 254 ∧ (memRead (core 254 9 [(254, 8), (8, 1)]) 8).toNat < (9#8).toNat) := by
  decide

theorem witness_OneLoopStateIsAFixedPoint :
    (Memory.wf (core 2 1 [(7, 3)]).mem ∧ (core 2 1 [(7, 3)]).run = .running ∧ (core 2 1 [(7, 3)]).pc = 2 ∧
      (core 2 1 [(7, 3)]).acc = 1) ∧ (core 0 0 [(7, 3)]).pc = 0 ∧ (core 0 0 [(7, 3)]).acc = 0 := by decide

theorem witness_DiagnosticsShowFetchTimeValues :
    3 ≤ (fetchWord (core 16 3 [(16, 3)])).toNat ∧ fetchWord (core 48 16 []) = 0 ∧ fetchWord (core 16 65 [(16, 1)]) = 1 := by
  decide

/-- NextFetchSeesTheWrite: the PC lands on the operand cell just written; on A; and on another cell. -/
theorem witness_NextFetchSeesTheWrite :
    (∃ t, step (core 16 3 [(16, 17), (17, 9)]) = .next t ∧ t.pc = 17 ∧ fetchWord (core 16 3 [(16, 17), (17, 9)]) = 17 ∧
      t.run = .running) ∧
    (∃ t, step (core 2 2 []) = .next t ∧ t.pc = 1 ∧ t.run = .running) ∧
    (∃ t, step (core 16 3 [(16, 8), (8, 7)]) = .next t ∧ 3 ≤ t.pc.toNat ∧ t.pc ≠ 8 ∧ t.run = .running) :=
  ⟨⟨_, rfl, by decide⟩, ⟨_, rfl, by decide⟩, ⟨_, rfl, by decide⟩⟩

theorem witness_HaltEvaluationOrder :
    (({ overflow1 := true, overflow2 := false } : PcSignals).overflow1 = true) ∧
      ((core 0 0 []).pc = 0 ∧ (core 0 0 []).acc = 0) ∧ ((core 2 1 []).pc = 2 ∧ (core 2 1 []).acc = 1) ∧
      ¬ ((core 1 0 []).pc = 0 ∧ (core 1 0 []).acc = 0) ∧ ¬ ((core 2 2 []).pc = 2 ∧ (core 2 2 []).acc = 1) := by decide

/-- A running core that meets the invariant, for the statements that have it as a premise. -/
theorem witness_CoreInv : CoreInv (core 255 9 [(255, 8), (8, 1)]) ∧ (core 255 9 [(255, 8), (8, 1)]).run = .running :=
  ⟨⟨by decide, by decide, by decide, by decide, by decide⟩, by decide⟩

/-- OverflowHaltExactlyOnWrap: base 255 (V12), base 254 with a borrow (V14). -/
theorem witness_OverflowHaltExactlyOnWrap :
    memRead (core 255 9 [(255, 8), (8, 1)]) 0 = 255 ∧ memRead (core 254 9 [(254, 8), (8, 1)]) 0 = 254 ∧
      CoreInv (core 254 9 [(254, 8), (8, 1)]) :=
  ⟨by decide, by decide, by decide, by decide, by decide, by decide, by decide⟩

/-- OneLoopHaltExactlyAtPcTwoAccOne: the fixed point itself (V20), with the invariant; and an instruction at PC = 1 (V19). -/
theorem witness_OneLoopHaltExactlyAtPcTwoAccOne :
    (CoreInv (core 2 1 []) ∧ (core 2 1 []).run = .running ∧ (core 2 1 []).pc = 2 ∧ (core 2 1 []).acc = 1) ∧
      CoreInv (core 1 5 [(5, 6)]) ∧ ∃ t, step (core 1 5 [(5, 6)]) = .next t ∧ t.cause = .oneLoop :=
  ⟨⟨⟨by decide, by decide, by decide, by decide, by decide⟩, by decide, by decide, by decide⟩,
    ⟨by decide, by decide, by decide, by decide, by decide⟩, _, rfl, by decide⟩

theorem witness_StepKeepsTheInvariant :
    CoreInv (core 16 3 [(16, 8)]) ∧ ∃ t, step (core 16 3 [(16, 8)]) = .next t :=
  ⟨⟨by decide, by decide, by decide, by decide, by decide⟩, _, rfl⟩

/-- Images that begin with the two pairs HaltIsCheckedOnlyAfterACycle speaks of. -/
theorem witness_HaltIsCheckedOnlyAfterACycle :
    (∃ image : Image, image[0] = 2#8 ∧ image[1] = 1#8) ∧ ∃ image : Image, image[0] = 0#8 ∧ image[1] = 0#8 :=
  ⟨⟨Vector.ofFn (fun k => if k.val = 0 then 2 else 1), by simp, by simp⟩, Vector.replicate 256 0, by simp, by simp⟩

theorem witness_NoSpuriousHalt :
    (core 16 3 [(16, 8), (8, 7)]).run = .running ∧
      ∀ k, k < 1 →
        (ClosedForm.valuesOf (ClosedForm.viewOf (runFor k (core 16 3 [(16, 8), (8, 7)])))).overflow1 = false ∧
        (ClosedForm.valuesOf (ClosedForm.viewOf (runFor k (core 16 3 [(16, 8), (8, 7)])))).overflow2 = false ∧
        ¬ ((runFor (k + 1) (core 16 3 [(16, 8), (8, 7)])).pc = 0#8 ∧ (runFor (k + 1) (core 16 3 [(16, 8), (8, 7)])).acc = 0#8) ∧
        ¬ ((runFor (k + 1) (core 16 3 [(16, 8), (8, 7)])).pc = 2#8 ∧ (runFor (k + 1) (core 16 3 [(16, 8), (8, 7)])).acc = 1#8) := by
  refine ⟨by decide, fun k hk => ?_⟩
  obtain rfl : k = 0 := by omega
  decide

/-- RunReturnsAtMostOneSnapshot, InitialDiagnosticsAreInvisible: a run that returns a snapshot after one cycle (V20). -/
theorem witness_RunReturns : (core 2 1 []).run = .running ∧ ∃ u, RunReturns (core 2 1 []) u :=
  ⟨by decide, _, runFor 1 (core 2 1 []), ⟨1, rfl, by decide⟩, rfl⟩

/-- The state program P5 repeats with period 3 (section 7): after cycle 4. -/
def p5Cycle : State :=
  { core 17 0 [(10, 3), (16, 1), (17, 10)] with mar := 1, mdr := 15 }

/-- RunReturnsOrGoesOnForever, the second alternative: the run of P5 goes on for ever. -/
theorem witness_RunsForever : RunsForever p5Cycle := by
  have h3 : ∀ n, runFor (n + 3) p5Cycle = runFor n p5Cycle := fun n => by
    rw [runFor_succ_next (t := runFor 1 p5Cycle) (by rfl), runFor_succ_next (t := runFor 2 p5Cycle) (by rfl),
      runFor_succ_next (t := p5Cycle) (by rfl)]
  intro n
  induction n using Nat.strongRecOn with
  | ind n ih =>
    match n with
    | 0 | 1 | 2 => decide
    | k + 3 => rw [h3]; exact ih k (by omega)

end Sys2Proof.Machine.Tests
end

section
/-! PROOF. O33: what a cycle does with BORROW (R17). The old MAR, MDR and BORROW are carried through the operations of a cycle
unread and overwritten by its step 7. -/

namespace Sys2Proof.Machine

/-! ### The diagnostic registers are no input of any operation -/

@[simp] theorem setDiagnostics_setDiagnostics (s : State) (mar mdr mar' mdr' : Byte) (b b' : Bool) :
    (s.setDiagnostics mar mdr b).setDiagnostics mar' mdr' b' = s.setDiagnostics mar' mdr' b' := rfl

@[simp] theorem pc_setDiagnostics (s : State) (mar mdr : Byte) (b : Bool) : (s.setDiagnostics mar mdr b).pc = s.pc := rfl

@[simp] theorem acc_setDiagnostics (s : State) (mar mdr : Byte) (b : Bool) : (s.setDiagnostics mar mdr b).acc = s.acc := rfl

@[simp] theorem fetchWord_setDiagnostics (s : State) (mar mdr : Byte) (b : Bool) :
    fetchWord (s.setDiagnostics mar mdr b) = fetchWord s := rfl

@[simp] theorem memWrite_setDiagnostics (s : State) (mar mdr : Byte) (b : Bool) (a v : Byte) :
    memWrite (s.setDiagnostics mar mdr b) a v = (memWrite s a v).setDiagnostics mar mdr b := by
  unfold memWrite; split <;> rfl

@[simp] theorem incPc_setDiagnostics (s : State) (mar mdr : Byte) (b : Bool) :
    incPc (s.setDiagnostics mar mdr b) = ((incPc s).1.setDiagnostics mar mdr b, (incPc s).2) := by
  simp [incPc]

@[simp] theorem advancePc_setDiagnostics (borrowed : Bool) (s : State) (mar mdr : Byte) (b : Bool) :
    advancePc borrowed (s.setDiagnostics mar mdr b) =
      ((advancePc borrowed s).1.setDiagnostics mar mdr b, (advancePc borrowed s).2) := by
  cases borrowed <;> simp [advancePc]

/-- Step 7 of the cycle overwrites the diagnostic registers, and no step before it reads them. -/
theorem rssbCycle_setDiagnostics (x : Byte) (s : State) (mar mdr : Byte) (b : Bool) :
    rssbCycle x (s.setDiagnostics mar mdr b) = rssbCycle x s := by
  simp [rssbCycle, readOperand, writeOperand, writeAcc]

/-- No step reads MAR, MDR or BORROW (R17, R81). -/
theorem step_setDiagnostics (s : State) (mar mdr : Byte) (b : Bool) : step (s.setDiagnostics mar mdr b) = step s := by
  rcases step_cases s with ⟨hrun, hstep⟩ | ⟨hrun, hstep⟩
  · rcases step_cases (s.setDiagnostics mar mdr b) with ⟨-, hstep'⟩ | ⟨hrun', -⟩
    · rw [hstep, hstep', fetchWord_setDiagnostics, execRssb, execRssb, rssbCycle_setDiagnostics]
    · simp [hrun] at hrun'
  · rcases step_cases (s.setDiagnostics mar mdr b) with ⟨hrun', -⟩ | ⟨-, hstep'⟩
    · simp [hrun] at hrun'
    · rw [hstep, hstep']

/-! ### What a running step answers -/

/-- A running core completes its cycle and the halt evaluation (R8, R91). -/
theorem step_of_running {s : State} (h : s.run = .running) :
    step s = .next (haltEval (rssbCycle (fetchWord s) s).2 (rssbCycle (fetchWord s) s).1) := by
  rcases step_cases s with ⟨-, hstep⟩ | ⟨hhalt, -⟩
  · exact hstep
  · exact absurd (h.symm.trans hhalt) (by decide)

/-- The halt evaluation leaves the PC. -/
@[simp] theorem haltEval_pc (sig : PcSignals) (s : State) : (haltEval sig s).pc = s.pc :=
  memRead_haltEval sig s 0#8

/-- The halt evaluation leaves BORROW. -/
@[simp] theorem haltEval_borrow (sig : PcSignals) (s : State) : (haltEval sig s).borrow = s.borrow :=
  (haltEval_frame sig s).2.2.2

/-- The PC after steps 5 and 6. -/
theorem advancePc_pc (b : Bool) (s : State) : (advancePc b s).1.pc = s.pc + (if b then 2#8 else 1#8) := by
  rw [pc_eq, memRead_advancePc, if_pos rfl]

/-- The cycle sets BORROW to the borrow of its own subtraction. -/
theorem rssbCycle_borrow (x : Byte) (s : State) :
    (rssbCycle x s).1.borrow = borrowFlag (memRead s x) s.acc := rfl

/-- The PC before the increments: the result when the operand is cell 0, else the old PC. -/
theorem pc_written (x r : Byte) (s : State) :
    (writeOperand x r (writeAcc r s)).pc = if x = 0#8 then r else s.pc := by
  by_cases hx : x = 0#8
  · simp [pc_eq, writeOperand, operandAddress, memRead_memWrite, hx]
  · simp [pc_eq, writeOperand, writeAcc, operandAddress, memRead_memWrite, hx, Ne.symm hx]

/-- The PC after the cycle, with the second increment exactly on the cycle's own borrow. -/
theorem rssbCycle_pc (x : Byte) (s : State) :
    (rssbCycle x s).1.pc =
      (if x = 0#8 then memRead s x - s.acc else s.pc) +
        (if borrowFlag (memRead s x) s.acc then 2#8 else 1#8) := by
  rw [← pc_written x (memRead s x - s.acc) s, ← advancePc_pc]
  rfl

theorem borrowFlag_iff (a b : Byte) : borrowFlag a b = true ↔ a.toNat < b.toNat := by
  simp [borrowFlag]

/-- Settles O33: BORROW and the second increment are the borrow of the cycle's own subtraction, step 7 overwrites the old
BORROW unread, and the other operations frame it. -/
theorem borrowRecordsTheLastSubtraction : Obligations.BorrowRecordsTheLastSubtraction := by
  intro s
  refine ⟨fun hrun => ⟨_, step_of_running hrun, ?_, ?_⟩, fun b => step_setDiagnostics s s.mar s.mdr b,
    memWrite_borrow s, fun _ => rfl, fun sig => haltEval_borrow sig s, memWrite_borrow s _ _, rfl⟩
  · rw [haltEval_borrow, rssbCycle_borrow, borrowFlag_iff]
  · rw [haltEval_borrow, haltEval_pc, rssbCycle_borrow, rssbCycle_pc]

end Sys2Proof.Machine
end

section
/-! PROOF. O1 and O2: the write rule of the memory (R32) and the zero cell (R34), read off `memRead_memWrite`. -/

namespace Sys2Proof.Machine

/-! ### What a write makes an address read -/

theorem memRead_memWrite_same (s : State) {a : Byte} (ha : a ≠ 2#8) (v : Byte) : memRead (memWrite s a v) a = v := by
  rw [memRead_memWrite, if_pos ⟨rfl, ha⟩]

theorem memRead_memWrite_of_ne (s : State) {a b : Byte} (hb : b ≠ a) (v : Byte) :
    memRead (memWrite s a v) b = memRead s b := by
  rw [memRead_memWrite, if_neg fun h => hb h.1]

/-- Settles O1: the cases of the write rule, with the PC and A as the cells 0 and 1 (R12, R13). -/
theorem writeChangesExactlyOneCell : Obligations.WriteChangesExactlyOneCell := by
  intro s a v
  have hzero (ha : a = 2#8) : memWrite s a v = s := by rw [ha, memWrite_zeroAddr]
  have hpc : (memWrite s 0#8 v).pc = v := memRead_memWrite_same s (by decide) v
  have hacc : (memWrite s 1#8 v).acc = v := memRead_memWrite_same s (by decide) v
  exact ⟨fun ha => memRead_memWrite_same s ha v, fun b hb => memRead_memWrite_of_ne s hb v, hzero, hpc, hacc,
    memWrite_mar s a v, memWrite_mdr s a v, memWrite_borrow s a v, memWrite_run s a v, memWrite_cause s a v⟩

/-- Settles O2: the zero cell has no storage, so a write to it leaves the whole state. -/
theorem zeroCellAlwaysReadsZero : Obligations.ZeroCellAlwaysReadsZero := by
  intro s v
  have hwrite : memWrite s 2#8 v = s := memWrite_zeroAddr s v
  exact ⟨memRead_zeroAddr _, fun b => by rw [hwrite]⟩

end Sys2Proof.Machine
end

section
/-! PROOF. O10 and O11: the two functions of the ALU, SubBorrow (R60) and Inc8 (R63), in the arithmetic of their arguments. -/

namespace Sys2Proof.Machine

/-! ### SubBorrow -/

/-- The result is the integer difference modulo 256. -/
theorem subBorrow_result_int_emod (a b : Byte) :
    ((subBorrow a b).1.toNat : Int) = ((a.toNat : Int) - (b.toNat : Int)) % 256 := by
  have hresult : (subBorrow a b).1.toNat = (256 - b.toNat + a.toNat) % 256 := BitVec.toNat_sub a b
  have hb : b.toNat < 256 := b.isLt
  omega

theorem subBorrow_borrow_iff_neg (a b : Byte) :
    (subBorrow a b).2 = true ↔ (a.toNat : Int) - (b.toNat : Int) < 0 := by
  have hflag : (subBorrow a b).2 = true ↔ a.toNat < b.toNat := borrowFlag_iff a b
  rw [hflag]
  omega

/-- Settles O10: the result and the borrow as integers; the cycle's step 7 puts the borrow in BORROW, and the halt evaluation
leaves it there. -/
theorem subtractReportsBorrow : Obligations.SubtractReportsBorrow :=
  ⟨fun a b => ⟨subBorrow_result_int_emod a b, subBorrow_borrow_iff_neg a b⟩, by decide, by decide, by decide,
    fun x s => ⟨_, rfl, (haltEval_borrow _ _).trans (rssbCycle_borrow x s)⟩⟩

/-! ### Inc8 -/

theorem inc8_result_toNat (v : Byte) : (inc8 v).1.toNat = (v.toNat + 1) % 256 :=
  BitVec.toNat_add v 1#8

theorem inc8_overflow_iff (v : Byte) : (inc8 v).2 = true ↔ v = 255#8 := by
  have hflag : (inc8 v).2 = true ↔ v.toNat + 1 = 256 := decide_eq_true_iff
  have hv : v = 255#8 ↔ v.toNat = 255 := BitVec.toNat_inj.symm
  rw [hflag, hv]
  omega

/-- The increment wraps to 0 from 255 and from no other byte. -/
theorem inc8_result_eq_zero_iff (v : Byte) : (inc8 v).1 = 0#8 ↔ v = 255#8 := by
  have hzero : (inc8 v).1 = 0#8 ↔ (inc8 v).1.toNat = 0 := BitVec.toNat_inj.symm
  have hv : v = 255#8 ↔ v.toNat = 255 := BitVec.toNat_inj.symm
  have hresult := inc8_result_toNat v
  have hlt : v.toNat < 256 := v.isLt
  rw [hzero, hv]
  omega

/-- Settles O11: overflow and a zero result both mean the byte 255, and the PC's increment writes a cell, not BORROW. -/
theorem incrementReportsOverflow : Obligations.IncrementReportsOverflow := by
  refine ⟨fun v => ⟨inc8_result_toNat v, inc8_overflow_iff v, ?_⟩, by decide, by decide, by decide, fun s => ?_⟩
  · rw [inc8_overflow_iff, inc8_result_eq_zero_iff]
  · exact memWrite_borrow s Config.pcAddr _

end Sys2Proof.Machine
end

section
/-! PROOF. O20, O30 and O32: the cycle of RSSB with its halt evaluation (R70, R95), stated once per part of the state: the
cells, the PC overflow signals, RUN and CAUSE. The transfers (R72) and the diagnostics (R81) are read off it. -/

namespace Sys2Proof.Machine

/-! ### The cells after a cycle -/

/-- Steps 3 and 4 put one result in the accumulator and in the operand cell. -/
theorem memRead_written (x r : Byte) (s : State) (y : Byte) :
    memRead (writeOperand x r (writeAcc r s)) y =
      if (y = x ∧ x ≠ 2#8) ∨ y = 1#8 then r else memRead s y := by
  have hacc : memRead (writeAcc r s) y = if y = 1#8 then r else memRead s y := by
    simp [writeAcc, memRead_memWrite]
  rw [writeOperand, operandAddress, memRead_memWrite, hacc, ite_or]

/-- Every cell but the PC after a cycle: the increments touch none of them. -/
theorem memRead_rssbCycle (x : Byte) (s : State) {y : Byte} (hy : y ≠ 0#8) :
    memRead (rssbCycle x s).1 y =
      if (y = x ∧ x ≠ 2#8) ∨ y = 1#8 then memRead s x - s.acc else memRead s y := by
  rw [← memRead_written]
  exact (memRead_advancePc _ _ y).trans (if_neg hy)

theorem rssbCycle_acc (x : Byte) (s : State) : (rssbCycle x s).1.acc = memRead s x - s.acc := by
  rw [acc_eq, memRead_rssbCycle x s (by decide), if_pos (.inr rfl)]

theorem memRead_rssbCycle_operand (s : State) {x : Byte} (h0 : x ≠ 0#8) (h2 : x ≠ 2#8) :
    memRead (rssbCycle x s).1 x = memRead s x - s.acc := by
  rw [memRead_rssbCycle x s h0, if_pos (.inl ⟨rfl, h2⟩)]

theorem memRead_rssbCycle_other (x : Byte) (s : State) {y : Byte} (h0 : y ≠ 0#8) (h1 : y ≠ 1#8) (hx : y ≠ x) :
    memRead (rssbCycle x s).1 y = memRead s y := by
  rw [memRead_rssbCycle x s h0, if_neg (by simp [h1, hx])]

/-! ### MAR, MDR, RUN and CAUSE after a cycle -/

@[simp] theorem haltEval_mar (sig : PcSignals) (s : State) : (haltEval sig s).mar = s.mar :=
  (haltEval_frame sig s).2.1

@[simp] theorem haltEval_mdr (sig : PcSignals) (s : State) : (haltEval sig s).mdr = s.mdr :=
  (haltEval_frame sig s).2.2.1

@[simp] theorem rssbCycle_mar (x : Byte) (s : State) : (rssbCycle x s).1.mar = x := rfl

@[simp] theorem rssbCycle_mdr (x : Byte) (s : State) : (rssbCycle x s).1.mdr = memRead s x := rfl

/-- The seven steps leave RUN and CAUSE; only the halt evaluation writes them. -/
theorem rssbCycle_run_cause (x : Byte) (s : State) :
    (rssbCycle x s).1.run = s.run ∧ (rssbCycle x s).1.cause = s.cause := by
  let r := memRead s x - s.acc
  obtain ⟨-, -, -, hrun, hcause⟩ :=
    advancePc_frame (borrowFlag (memRead s x) s.acc) (writeOperand x r (writeAcc r s))
  exact ⟨hrun.trans (by simp [writeOperand, writeAcc]), hcause.trans (by simp [writeOperand, writeAcc])⟩

/-! ### The two transfers of the PC -/

/-- No jump: the PC moves on by one, or skips one cell on a borrow. -/
theorem rssbCycle_pc_skip (s : State) {x : Byte} (hx : x ≠ 0#8) :
    (rssbCycle x s).1.pc = if borrowFlag (memRead s x) s.acc then s.pc + 2#8 else s.pc + 1#8 := by
  rw [rssbCycle_pc, if_neg hx]
  exact apply_ite (s.pc + ·) _ _ _

/-- A jump: the increments start from the result. -/
theorem rssbCycle_pc_jump (s : State) {x : Byte} (hx : x = 0#8) :
    (rssbCycle x s).1.pc =
      if borrowFlag (memRead s x) s.acc then memRead s x - s.acc + 2#8 else memRead s x - s.acc + 1#8 := by
  rw [rssbCycle_pc, if_pos hx]
  exact apply_ite (memRead s x - s.acc + ·) _ _ _

/-! ### The PC overflow signals -/

/-- An increment wraps exactly when steps 5 and 6 start from 255, or from 254 with a second increment. -/
theorem anyOverflow_advancePc (b : Bool) (s : State) :
    anyOverflow (advancePc b s).2 = true ↔ s.pc = 255#8 ∨ (b = true ∧ s.pc = 254#8) := by
  obtain ⟨h1, h2⟩ := advancePc_signals b s
  have h255 : s.pc = 255#8 ↔ s.pc.toNat = 255 := BitVec.toNat_inj.symm
  have h254 : s.pc = 254#8 ↔ s.pc.toNat = 254 := BitVec.toNat_inj.symm
  simp [anyOverflow, h1, h2, h255, h254]

/-- The signals of a cycle, in the PC its increments start from: the result for a jump, else the old PC. -/
theorem anyOverflow_rssbCycle (x : Byte) (s : State) :
    anyOverflow (rssbCycle x s).2 = true ↔
      (if x = 0#8 then memRead s x - s.acc else s.pc) = 255#8 ∨
        (borrowFlag (memRead s x) s.acc = true ∧ (if x = 0#8 then memRead s x - s.acc else s.pc) = 254#8) := by
  rw [← pc_written x (memRead s x - s.acc) s]
  exact anyOverflow_advancePc _ _

/-- A wrap comes first in the order of the halt evaluation (R95). -/
theorem haltEval_of_overflow {sig : PcSignals} (h : anyOverflow sig = true) (s : State) :
    haltEval sig s = s.setHalt .pcOverflow :=
  if_pos h

/-! ### The obligations -/

/-- Settles O20: the halt evaluation reads the cycle's own signals and its PC and A, and changes no cell. -/
theorem rssbCycleResult : Obligations.RssbCycleResult := by
  intro s x
  refine ⟨fun hrun hx => ?_, haltEval (rssbCycle x s).2 (rssbCycle x s).1, rfl, ?_⟩
  · rw [step_of_running hrun, hx]; rfl
  simp only [memRead_haltEval]
  refine ⟨rssbCycle_acc x s, memRead_rssbCycle_operand s, memRead_zeroAddr _, rssbCycle_pc x s,
    fun y => memRead_rssbCycle_other x s, (haltEval_mar _ _).trans (rssbCycle_mar x s),
    (haltEval_mdr _ _).trans (rssbCycle_mdr x s),
    (haltEval_borrow _ _).trans (rssbCycle_borrow x s), ?_⟩
  obtain ⟨hrun, hcause⟩ := rssbCycle_run_cause x s
  rw [haltEval_run_cause, hrun, hcause]
  simp only [anyOverflow_rssbCycle]
  rfl

/-- Settles O30: the PC's increments start from the old PC, or from the result for operand address 0, and a wrap in them is
the first case of the halt evaluation. -/
theorem skipAndJumpAreTheOnlyTransfers : Obligations.SkipAndJumpAreTheOnlyTransfers := by
  intro s hrun
  refine ⟨_, step_of_running hrun, fun hx => ?_, fun hx => ?_, fun hwrap => ?_⟩
  · exact (haltEval_pc _ _).trans (rssbCycle_pc_skip s hx)
  · exact (haltEval_pc _ _).trans (rssbCycle_pc_jump s hx)
  · rw [haltEval_of_overflow ((anyOverflow_rssbCycle (fetchWord s) s).mpr hwrap)]
    exact ⟨rfl, rfl⟩

/-- Settles O32: MDR is latched from the read of step 2, and no step reads the registers it latches. -/
theorem diagnosticsShowFetchTimeValues : Obligations.DiagnosticsShowFetchTimeValues := by
  intro s
  refine ⟨fun hrun => ⟨_, step_of_running hrun, (haltEval_mar _ _).trans (rssbCycle_mar _ s),
    (haltEval_mdr _ _).trans (rssbCycle_mdr _ s), fun hx => ?_, fun hx => ?_, fun hx => ?_⟩,
    fun mar mdr => step_setDiagnostics s mar mdr s.borrow⟩
  · have h0 : fetchWord s ≠ 0#8 := fun h => by simp [h] at hx
    have h2 : fetchWord s ≠ 2#8 := fun h => by simp [h] at hx
    rw [memRead_haltEval, memRead_rssbCycle_operand s h0 h2]
  · rw [haltEval_mdr, rssbCycle_mdr, hx, pc_eq]
  · rw [haltEval_mdr, rssbCycle_mdr, hx, acc_eq]

end Sys2Proof.Machine
end

section
/-! PROOF. O35, O19 and O39: the halt evaluation (R95) as one equation per case, when it halts a running core (R90), and that
a run meets it only after a cycle (R94). -/

namespace Sys2Proof.Machine

/-! ### The halt evaluation, when no increment wrapped -/

theorem haltEval_of_zeroLoop {sig : PcSignals} {s : State} (hsig : anyOverflow sig = false) (hpc : s.pc = 0#8)
    (hacc : s.acc = 0#8) : haltEval sig s = s.setHalt .zeroLoop := by
  simp [haltEval, hsig, hpc, hacc]

theorem haltEval_of_oneLoop {sig : PcSignals} {s : State} (hsig : anyOverflow sig = false) (hpc : s.pc = 2#8)
    (hacc : s.acc = 1#8) : haltEval sig s = s.setHalt .oneLoop := by
  simp [haltEval, hsig, hpc, hacc]

theorem haltEval_of_no_predicate {sig : PcSignals} {s : State} (hsig : anyOverflow sig = false)
    (hzero : ¬ (s.pc = 0#8 ∧ s.acc = 0#8)) (hone : ¬ (s.pc = 2#8 ∧ s.acc = 1#8)) : haltEval sig s = s := by
  simp [haltEval, hsig, hzero, hone]

/-- The evaluation halts a running core exactly when one of the three predicates holds. -/
theorem haltEval_halted_iff (sig : PcSignals) {s : State} (hrun : s.run = .running) :
    (haltEval sig s).run = .halted ↔
      anyOverflow sig = true ∨ (s.pc = 0#8 ∧ s.acc = 0#8) ∨ (s.pc = 2#8 ∧ s.acc = 1#8) := by
  rw [← zeroLoopHolds_iff, ← oneLoopHolds_iff]
  rcases haltEval_cases sig s with ⟨h1, h⟩ | ⟨-, h2, h⟩ | ⟨-, -, h3, h⟩ | ⟨h1, h2, h3, h⟩
  · simp [h, h1]
  · simp [h, h2]
  · simp [h, h3]
  · simp [h, h1, h2, h3, hrun]

/-- Settles O35: an equation of the halt evaluation for each of its four cases, in their order. -/
theorem haltEvaluationOrder : Obligations.HaltEvaluationOrder := by
  intro sig s
  refine ⟨fun hwrap => ?_, fun h1 h2 => ?_⟩
  · have hsig : anyOverflow sig = true := by simpa [anyOverflow] using hwrap
    exact haltEval_of_overflow hsig s
  · have hsig : anyOverflow sig = false := by simp [anyOverflow, h1, h2]
    exact ⟨haltEval_of_zeroLoop hsig, haltEval_of_oneLoop hsig, haltEval_of_no_predicate hsig⟩

/-! ### Running and Halted -/

@[simp] theorem haltEval_acc (sig : PcSignals) (s : State) : (haltEval sig s).acc = s.acc :=
  memRead_haltEval sig s 1#8

/-- A load sets no register, so the core it leaves is Running as after reset. -/
@[simp] theorem init_run (image : Image) : (init image).run = .running := rfl

theorem step_of_halted {s : State} (h : s.run = .halted) : step s = .fault .halted := by
  rcases step_cases s with ⟨hrun, -⟩ | ⟨-, hstep⟩
  · exact absurd (h.symm.trans hrun) (by decide)
  · exact hstep

/-- Settles O19: the seven steps of the cycle leave RUN, so the halt evaluation alone decides it, on the cycle's own signals and
its PC and A. -/
theorem runStateMachine : Obligations.RunStateMachine := by
  refine ⟨rfl, init_run, fun s => ⟨fun hrun => ⟨_, step_of_running hrun, ?_⟩, fun hhalt t => ?_⟩⟩
  · obtain ⟨hcycle, -⟩ := rssbCycle_run_cause (fetchWord s) s
    rw [haltEval_halted_iff _ (hcycle.trans hrun), haltEval_pc, haltEval_acc, anyOverflow_rssbCycle]
    rfl
  · simp [step_of_halted hhalt]

/-! ### The first cycle -/

theorem init_pc (image : Image) : (init image).pc = image[0] :=
  (memRead_load image State.reset 0#8 (by decide)).trans (by simp [List.getD])

theorem init_acc (image : Image) : (init image).acc = image[1] :=
  (memRead_load image State.reset 1#8 (by decide)).trans (by simp [List.getD])

/-- A jump that does not borrow goes to the cell after its result, and wraps only from 255. -/
theorem rssbCycle_jump_of_no_borrow {s : State} (hborrow : s.acc.toNat ≤ s.pc.toNat) (hwrap : s.pc - s.acc ≠ 255#8) :
    anyOverflow (rssbCycle 0#8 s).2 = false ∧ (rssbCycle 0#8 s).1.pc = s.pc - s.acc + 1#8 ∧
      (rssbCycle 0#8 s).1.acc = s.pc - s.acc := by
  have hb : borrowFlag s.pc s.acc = false := by simpa [borrowFlag] using hborrow
  refine ⟨?_, ?_, rssbCycle_acc 0#8 s⟩
  · rw [← Bool.not_eq_true, anyOverflow_rssbCycle, if_pos rfl, ← pc_eq]
    simp [hb, hwrap]
  · rw [rssbCycle_pc_jump s rfl, ← pc_eq, hb]; rfl

/-- At PC = 2 the fetch reads the zero cell, so the cycle is a jump by 2 - A: with A = 1 it comes back to the same PC and A, and
its halt evaluation finds them. -/
theorem step_of_oneLoop_state {s : State} (hrun : s.run = .running) (hpc : s.pc = 2#8) (hacc : s.acc = 1#8) :
    ∃ t, step s = .next t ∧ t.run = .halted ∧ t.cause = .oneLoop := by
  have hx : fetchWord s = 0#8 := by rw [fetchWord, hpc, memRead_zeroAddr]
  obtain ⟨hsig, hpc', hacc'⟩ := rssbCycle_jump_of_no_borrow (s := s) (by simp [hpc, hacc]) (by simp [hpc, hacc])
  rw [hpc, hacc] at hpc' hacc'
  refine ⟨_, step_of_running hrun, ?_⟩
  rw [hx, haltEval_of_oneLoop hsig hpc' hacc']
  exact ⟨rfl, rfl⟩

/-- At PC = 0 the fetch reads the PC itself, so the cycle is a jump by 0 - A: with A = 0 it goes to PC = 1, where no halt
predicate holds. -/
theorem step_of_zeroLoop_state {s : State} (hrun : s.run = .running) (hpc : s.pc = 0#8) (hacc : s.acc = 0#8) :
    ∃ t, step s = .next t ∧ t.run = .running ∧ t.pc = 1#8 ∧ t.acc = 0#8 := by
  have hx : fetchWord s = 0#8 := by rw [fetchWord, hpc, ← pc_eq, hpc]
  obtain ⟨hsig, hpc', hacc'⟩ := rssbCycle_jump_of_no_borrow (s := s) (by simp [hpc, hacc]) (by simp [hpc, hacc])
  rw [hpc, hacc] at hpc' hacc'
  obtain ⟨hcycle, -⟩ := rssbCycle_run_cause 0#8 s
  refine ⟨_, step_of_running hrun, ?_⟩
  rw [hx, haltEval_of_no_predicate hsig (by simp [hpc']) (by simp [hpc'])]
  exact ⟨hcycle.trans hrun, hpc', hacc'⟩

/-- A run of one cycle is one step. -/
theorem runFor_one {s t : State} (h : step s = .next t) : runFor 1 s = t :=
  runFor_succ_next h 0

/-- Settles O39: the loaded core is Running whatever its PC and A are, so the first halt evaluation is the one of its first
cycle. -/
theorem haltIsCheckedOnlyAfterACycle : Obligations.HaltIsCheckedOnlyAfterACycle := by
  intro image
  refine ⟨init_run image, ⟨_, step_of_running (init_run image)⟩, fun h0 h1 => ?_, fun h0 h1 => ?_⟩
  · obtain ⟨t, hstep, ht⟩ :=
      step_of_oneLoop_state (init_run image) ((init_pc image).trans h0) ((init_acc image).trans h1)
    rw [runFor_one hstep]
    exact ht
  · obtain ⟨t, hstep, ht⟩ :=
      step_of_zeroLoop_state (init_run image) ((init_pc image).trans h0) ((init_acc image).trans h1)
    rw [runFor_one hstep]
    exact ht

end Sys2Proof.Machine
end

section
/-! PROOF. O9: the first cycle fetches through the image's byte 0 (R131). -/

namespace Sys2Proof.Machine

/-- A running step is the instruction `RSSB` with the fetched word as operand address (R50, R52). -/
theorem step_eq_exec_of_running {s : State} (h : s.run = .running) : step s = exec (.rssb (fetchWord s)) s :=
  step_of_running h

/-- The loaded core's PC is byte 0 of the image, so its first fetch reads the cell at that address. -/
theorem fetchWord_init (image : Image) : fetchWord (init image) = memRead (init image) image[0] := by
  rw [fetchWord, init_pc]

/-- Settles O9: the loaded core is Running, so its first step is the instruction fetched through the PC, which is byte 0. -/
theorem firstCycleFetchesThroughByteZero : Obligations.FirstCycleFetchesThroughByteZero := by
  intro image
  refine ⟨init_pc image, init_acc image, ?_, _, step_of_running (init_run image)⟩
  rw [step_eq_exec_of_running (init_run image), fetchWord_init]

end Sys2Proof.Machine
end

section
/-! PROOF. The layer the statements about steps rest on: the state after a cycle and its halt evaluation (R70, R95) as one
function, each of its fields once, and the inversion that says which of the halts it can answer. -/

namespace Sys2Proof.Machine

/-! ### The completed cycle -/

/-- The state a completed `RSSB x` leaves: the seven steps of the cycle and the halt evaluation on its own signals. -/
def afterCycle (x : Byte) (s : State) : State :=
  haltEval (rssbCycle x s).2 (rssbCycle x s).1

/-- The PC that the increments of the cycle start from: the result for a jump, else the old PC (R71). -/
def cycleBase (x : Byte) (s : State) : Byte :=
  if x = 0#8 then memRead s x - s.acc else s.pc

/-- The borrow of the cycle's subtraction (R71). -/
def cycleBorrow (x : Byte) (s : State) : Bool :=
  borrowFlag (memRead s x) s.acc

/-- One of the cycle's PC increments wraps from 255 to 0 (R92). -/
def CycleWraps (x : Byte) (s : State) : Prop :=
  cycleBase x s = 255#8 ∨ (cycleBorrow x s = true ∧ cycleBase x s = 254#8)

variable (x : Byte) (s : State)

theorem exec_rssb : exec (.rssb x) s = .next (afterCycle x s) := rfl

theorem step_eq_afterCycle {s : State} (h : s.run = .running) : step s = .next (afterCycle (fetchWord s) s) :=
  step_of_running h

/-- A step that answers a next state is a completed cycle of a running core. -/
theorem running_of_step_next {s t : State} (h : step s = .next t) :
    s.run = .running ∧ t = afterCycle (fetchWord s) s := by
  rcases step_cases s with ⟨hrun, -⟩ | ⟨-, hstep⟩
  · rw [step_eq_afterCycle hrun] at h
    exact ⟨hrun, (Host.Outcome.next.inj h).symm⟩
  · simp [hstep] at h

/-! ### Its cells and diagnostic registers -/

theorem afterCycle_pc : (afterCycle x s).pc = cycleBase x s + (if cycleBorrow x s then 2#8 else 1#8) :=
  (haltEval_pc _ _).trans (rssbCycle_pc x s)

@[simp] theorem afterCycle_acc : (afterCycle x s).acc = memRead s x - s.acc :=
  (haltEval_acc _ _).trans (rssbCycle_acc x s)

@[simp] theorem afterCycle_mar : (afterCycle x s).mar = x :=
  (haltEval_mar _ _).trans (rssbCycle_mar x s)

@[simp] theorem afterCycle_mdr : (afterCycle x s).mdr = memRead s x :=
  (haltEval_mdr _ _).trans (rssbCycle_mdr x s)

@[simp] theorem afterCycle_borrow : (afterCycle x s).borrow = cycleBorrow x s :=
  (haltEval_borrow _ _).trans (rssbCycle_borrow x s)

theorem memRead_afterCycle {y : Byte} (hy : y ≠ 0#8) :
    memRead (afterCycle x s) y = if (y = x ∧ x ≠ 2#8) ∨ y = 1#8 then memRead s x - s.acc else memRead s y :=
  (memRead_haltEval _ _ y).trans (memRead_rssbCycle x s hy)

theorem memRead_afterCycle_operand (s : State) {x : Byte} (h0 : x ≠ 0#8) (h2 : x ≠ 2#8) :
    memRead (afterCycle x s) x = memRead s x - s.acc := by
  rw [memRead_afterCycle x s h0, if_pos (.inl ⟨rfl, h2⟩)]

theorem memRead_afterCycle_other (x : Byte) (s : State) {y : Byte} (h0 : y ≠ 0#8) (h1 : y ≠ 1#8) (hx : y ≠ x) :
    memRead (afterCycle x s) y = memRead s y :=
  (memRead_haltEval _ _ y).trans (memRead_rssbCycle_other x s h0 h1 hx)

/-- With operand address 0, 1 or 2 the cycle writes no cell but the PC and A. -/
theorem memRead_afterCycle_of_low_operand {x : Byte} (s : State) (hx : x = 0#8 ∨ x = 1#8 ∨ x = 2#8) {y : Byte} (h0 : y ≠ 0#8)
    (h1 : y ≠ 1#8) : memRead (afterCycle x s) y = memRead s y := by
  by_cases hy : y = x
  · obtain rfl : x = 2#8 := by simpa [hy ▸ h0, hy ▸ h1] using hx
    rw [hy, memRead_zeroAddr, memRead_zeroAddr]
  · exact memRead_afterCycle_other x s h0 h1 hy

/-! ### Its PC when an increment wraps, and when none does -/

variable {x s}

theorem cycleBase_skip (hx : x ≠ 0#8) : cycleBase x s = s.pc :=
  if_neg hx

theorem cycleBase_jump : cycleBase 0#8 s = s.pc - s.acc :=
  if_pos rfl

theorem cycleBorrow_iff : cycleBorrow x s = true ↔ (memRead s x).toNat < s.acc.toNat :=
  borrowFlag_iff _ _

theorem afterCycle_pc_of_base_255 (h : cycleBase x s = 255#8) :
    (afterCycle x s).pc = if cycleBorrow x s then 1#8 else 0#8 := by
  rw [afterCycle_pc, h]
  cases cycleBorrow x s <;> rfl

theorem afterCycle_pc_of_base_254 (hb : cycleBorrow x s = true) (h : cycleBase x s = 254#8) :
    (afterCycle x s).pc = 0#8 := by
  rw [afterCycle_pc, h, hb]
  rfl

/-- A wrap leaves the PC 0, or 1 when the first increment wrapped and a second followed. -/
theorem CycleWraps.pc_le_one (h : CycleWraps x s) : (afterCycle x s).pc = 0#8 ∨ (afterCycle x s).pc = 1#8 := by
  rcases h with h255 | ⟨hb, h254⟩
  · rw [afterCycle_pc_of_base_255 h255]
    cases cycleBorrow x s
    · exact .inl rfl
    · exact .inr rfl
  · exact .inl (afterCycle_pc_of_base_254 hb h254)

/-- A PC of 0 after a cycle is the mark of a wrap (R97): an increment gives 0 only from 255. -/
theorem cycleWraps_of_pc_eq_zero (h : (afterCycle x s).pc = 0#8) : CycleWraps x s := by
  rw [afterCycle_pc] at h
  cases hb : cycleBorrow x s <;> simp only [hb, if_true, Bool.false_eq_true, if_false] at h
  · exact .inl (by bv_omega)
  · exact .inr ⟨hb, by bv_omega⟩

/-! ### Its RUN and CAUSE -/

theorem anyOverflow_iff_cycleWraps : anyOverflow (rssbCycle x s).2 = true ↔ CycleWraps x s :=
  anyOverflow_rssbCycle x s

/-- RUN and CAUSE after a cycle. ZeroLoop is never among them: a PC of 0 comes from a wrap, and a wrap is tested first. -/
theorem afterCycle_cases (x : Byte) (s : State) :
    (CycleWraps x s ∧ (afterCycle x s).run = .halted ∧ (afterCycle x s).cause = .pcOverflow) ∨
    (¬ CycleWraps x s ∧ ((afterCycle x s).pc = 2#8 ∧ (afterCycle x s).acc = 1#8) ∧
      (afterCycle x s).run = .halted ∧ (afterCycle x s).cause = .oneLoop) ∨
    (¬ CycleWraps x s ∧ ¬ ((afterCycle x s).pc = 2#8 ∧ (afterCycle x s).acc = 1#8) ∧
      (afterCycle x s).run = s.run ∧ (afterCycle x s).cause = s.cause) := by
  have hpc : (afterCycle x s).pc = (rssbCycle x s).1.pc := haltEval_pc _ _
  have hacc : (afterCycle x s).acc = (rssbCycle x s).1.acc := haltEval_acc _ _
  obtain ⟨hrun, hcause⟩ := rssbCycle_run_cause x s
  by_cases hwrap : CycleWraps x s
  · have h : afterCycle x s = (rssbCycle x s).1.setHalt .pcOverflow :=
      haltEval_of_overflow (anyOverflow_iff_cycleWraps.mpr hwrap) _
    exact .inl ⟨hwrap, by simp [h]⟩
  have hsig : anyOverflow (rssbCycle x s).2 = false := by
    rw [← Bool.not_eq_true, anyOverflow_iff_cycleWraps]; exact hwrap
  by_cases hone : (afterCycle x s).pc = 2#8 ∧ (afterCycle x s).acc = 1#8
  · have h : afterCycle x s = (rssbCycle x s).1.setHalt .oneLoop :=
      haltEval_of_oneLoop hsig (hpc ▸ hone.1) (hacc ▸ hone.2)
    exact .inr (.inl ⟨hwrap, hone, congrArg State.run h, congrArg State.cause h⟩)
  · have hpc0 : (afterCycle x s).pc ≠ 0#8 := fun h => hwrap (cycleWraps_of_pc_eq_zero h)
    have h : afterCycle x s = (rssbCycle x s).1 :=
      haltEval_of_no_predicate hsig (fun hz => hpc0 (hpc.trans hz.1)) (by rw [← hpc, ← hacc]; exact hone)
    exact .inr (.inr ⟨hwrap, hone, (congrArg State.run h).trans hrun, (congrArg State.cause h).trans hcause⟩)

theorem afterCycle_of_wraps (h : CycleWraps x s) :
    (afterCycle x s).run = .halted ∧ (afterCycle x s).cause = .pcOverflow := by
  rcases afterCycle_cases x s with ⟨-, hhalt⟩ | ⟨hno, -⟩ | ⟨hno, -⟩
  · exact hhalt
  · exact absurd h hno
  · exact absurd h hno

/-- PC = 2 after a cycle shows that no increment wrapped. -/
theorem afterCycle_of_oneLoop (hpc : (afterCycle x s).pc = 2#8) (hacc : (afterCycle x s).acc = 1#8) :
    (afterCycle x s).run = .halted ∧ (afterCycle x s).cause = .oneLoop := by
  rcases afterCycle_cases x s with ⟨hwrap, -⟩ | ⟨-, -, hhalt⟩ | ⟨-, hno, -⟩
  · have hle := hwrap.pc_le_one
    simp [hpc] at hle
  · exact hhalt
  · exact absurd ⟨hpc, hacc⟩ hno

/-- A cycle that wraps no increment and does not end at PC = 2, A = 1 halts nothing. -/
theorem afterCycle_run_of_no_halt (hwrap : ¬ CycleWraps x s)
    (hone : ¬ ((afterCycle x s).pc = 2#8 ∧ (afterCycle x s).acc = 1#8)) : (afterCycle x s).run = s.run := by
  rcases afterCycle_cases x s with ⟨h, -⟩ | ⟨-, h, -⟩ | ⟨-, -, hrun, -⟩
  · exact absurd h hwrap
  · exact absurd h hone
  · exact hrun

end Sys2Proof.Machine
end

section
/-! PROOF. O47, with O46 and O48: the invariant of the core (R24, R97, R101) holds after reset and after a load, and every step
keeps it; and O36, O37, O38, which cause a step of a core that meets it reports. -/

namespace Sys2Proof.Machine

variable {x : Byte} {s : State}

/-! ### A running core that meets the invariant has no cause -/

theorem CoreInv.cause_eq_none (hinv : CoreInv s) (hrun : s.run = .running) : s.cause = .none := by
  by_contra hne
  have hhalt := hinv.halted_iff_cause.mpr hne
  simp [hrun] at hhalt

/-- A running core of a canonical memory without a cause meets the invariant: its other parts speak of halted cores. -/
theorem coreInv_of_running (hmem : Memory.wf s.mem) (hrun : s.run = .running) (hcause : s.cause = .none) : CoreInv s where
  memory := hmem
  halted_iff_cause := by simp [hrun, hcause]
  never_zeroLoop := by simp [hcause]
  overflow_pc := by simp [hcause]
  oneLoop_pc_acc := by simp [hcause]

/-! ### The cycle -/

/-- A cycle keeps the canonical form of the memory: it is made of writes. -/
theorem afterCycle_wf (hmem : Memory.wf s.mem) (x : Byte) : Memory.wf (afterCycle x s).mem := by
  rw [afterCycle, (haltEval_frame _ _).1]
  exact advancePc_wf (memWrite_wf (memWrite_wf hmem _ _) _ _) _

/-- The invariant after a cycle, whichever of the three ways it ends. -/
theorem afterCycle_coreInv (hmem : Memory.wf s.mem) (hrun : s.run = .running) (hcause : s.cause = .none) (x : Byte) :
    CoreInv (afterCycle x s) := by
  have hwf := afterCycle_wf hmem x
  rcases afterCycle_cases x s with ⟨hwrap, hr, hc⟩ | ⟨-, hone, hr, hc⟩ | ⟨-, -, hr, hc⟩
  · exact ⟨hwf, by simp [hr, hc], by simp [hc], fun _ => hwrap.pc_le_one, by simp [hc]⟩
  · exact ⟨hwf, by simp [hr, hc], by simp [hc], by simp [hc], fun _ => hone⟩
  · exact coreInv_of_running hwf (hr.trans hrun) (hc.trans hcause)

/-- Settles O47: a step that answers a next state is a cycle of a running core, and that core has no cause. -/
theorem stepKeepsTheInvariant : Obligations.StepKeepsTheInvariant := by
  intro s t hinv hstep
  obtain ⟨hrun, rfl⟩ := running_of_step_next hstep
  exact afterCycle_coreInv hinv.memory hrun (hinv.cause_eq_none hrun) _

/-- Settles O46: the reset core has canonical memory, is Running and has no cause. -/
theorem resetMeetsTheInvariant : Obligations.ResetMeetsTheInvariant :=
  coreInv_of_running reset_wf rfl rfl

/-! ### Runs -/

theorem init_coreInv (image : Image) : CoreInv (init image) :=
  coreInv_of_running (load_wf image State.reset) rfl rfl

/-- The invariant holds of every state of a run whose first state meets it. -/
theorem runFor_coreInv (hinv : CoreInv s) (n : Nat) : CoreInv (runFor n s) := by
  induction n generalizing s with
  | zero => exact hinv
  | succ n ih =>
    cases hrun : s.run with
    | running =>
      have hstep := step_eq_afterCycle hrun
      rw [runFor_succ_next hstep]
      exact ih (stepKeepsTheInvariant s _ hinv hstep)
    | halted => rw [runFor_halted hrun]; exact hinv

theorem step_safe (s : State) : SafeOutcome (step s) := by
  cases hrun : s.run with
  | running => rw [step_eq_afterCycle hrun]; trivial
  | halted => rw [step_of_halted hrun]; trivial

/-- Settles O48: the loaded core meets the invariant, and a step is safe from every state. -/
theorem everyRunMeetsTheInvariant : Obligations.EveryRunMeetsTheInvariant :=
  fun image n => ⟨runFor_coreInv (init_coreInv image) n, fun k => step_safe (runFor k (init image))⟩

/-! ### The reported cause -/

theorem afterCycle_cause_pcOverflow_iff (hcause : s.cause = .none) :
    (afterCycle x s).cause = .pcOverflow ↔ CycleWraps x s := by
  rcases afterCycle_cases x s with ⟨hwrap, -, hc⟩ | ⟨hwrap, -, -, hc⟩ | ⟨hwrap, -, -, hc⟩
  · simp [hc, hwrap]
  · simp [hc, hwrap]
  · simp [hc, hwrap, hcause]

theorem afterCycle_cause_oneLoop_iff (hcause : s.cause = .none) :
    (afterCycle x s).cause = .oneLoop ↔ (afterCycle x s).pc = 2#8 ∧ (afterCycle x s).acc = 1#8 := by
  refine ⟨fun hc => ?_, fun ⟨hpc, hacc⟩ => (afterCycle_of_oneLoop hpc hacc).2⟩
  rcases afterCycle_cases x s with ⟨-, -, hc'⟩ | ⟨-, hone, -⟩ | ⟨-, -, -, hc'⟩
  · simp [hc'] at hc
  · exact hone
  · simp [hc', hcause] at hc

/-- Settles O36: a core without a cause gets PcOverflow from the first case of the halt evaluation only. -/
theorem overflowHaltExactlyOnWrap : Obligations.OverflowHaltExactlyOnWrap := by
  intro s hinv hrun
  have hiff := afterCycle_cause_pcOverflow_iff (x := fetchWord s) (hinv.cause_eq_none hrun)
  exact ⟨_, step_eq_afterCycle hrun, hiff, fun hc => (afterCycle_of_wraps (hiff.mp hc)).1,
    afterCycle_pc_of_base_255, afterCycle_pc_of_base_254⟩

/-- Settles O37: the step keeps the invariant, which shuts ZeroLoop out; and a PC of 0 is the mark of a wrap. -/
theorem zeroLoopIsNeverReported : Obligations.ZeroLoopIsNeverReported := by
  intro s hinv hrun
  have hstep := step_eq_afterCycle hrun
  exact ⟨_, hstep, (stepKeepsTheInvariant s _ hinv hstep).never_zeroLoop,
    fun hpc => afterCycle_of_wraps (cycleWraps_of_pc_eq_zero hpc)⟩

/-! ### The one loop -/

/-- At PC = 2 the word fetched is the zero cell's. -/
theorem fetchWord_of_pc_two (hpc : s.pc = 2#8) : fetchWord s = 0#8 := by
  rw [fetchWord, hpc, memRead_zeroAddr]

/-- At PC = 0 the word fetched is the PC itself. -/
theorem fetchWord_of_pc_zero (hpc : s.pc = 0#8) : fetchWord s = 0#8 := by
  rw [fetchWord, hpc, ← pc_eq, hpc]

/-- At PC = 1 the word fetched is A. -/
theorem fetchWord_of_pc_one (hpc : s.pc = 1#8) : fetchWord s = s.acc := by
  rw [fetchWord, hpc, acc_eq]

/-- PC = 2, A = 1 is mapped to itself: a jump by 2 - 1, and the one increment comes back to 2. -/
theorem afterCycle_oneLoop_state (hpc : s.pc = 2#8) (hacc : s.acc = 1#8) :
    (afterCycle 0#8 s).pc = 2#8 ∧ (afterCycle 0#8 s).acc = 1#8 := by
  have hb : cycleBorrow 0#8 s = false := by rw [cycleBorrow, ← pc_eq, hpc, hacc]; rfl
  rw [afterCycle_pc, afterCycle_acc, cycleBase_jump, hb, ← pc_eq, hpc, hacc]
  exact ⟨rfl, rfl⟩

/-- At PC = 2, A = 1 the cycle leaves every cell as it was. -/
theorem memRead_afterCycle_oneLoop_state (hpc : s.pc = 2#8) (hacc : s.acc = 1#8) (y : Byte) :
    memRead (afterCycle 0#8 s) y = memRead s y := by
  obtain ⟨hpc', hacc'⟩ := afterCycle_oneLoop_state hpc hacc
  by_cases h0 : y = 0#8
  · rw [h0, ← pc_eq, ← pc_eq, hpc, hpc']
  by_cases h1 : y = 1#8
  · rw [h1, ← acc_eq, ← acc_eq, hacc, hacc']
  exact memRead_afterCycle_of_low_operand s (.inl rfl) h0 h1

/-- The ways into the one loop: a result of 1 without a borrow, in a jump or at PC = 1. At PC = 0, where a skip would lead to 2,
the instruction is a jump. -/
theorem afterCycle_reaches_oneLoop_iff (s : State) :
    (afterCycle (fetchWord s) s).pc = 2#8 ∧ (afterCycle (fetchWord s) s).acc = 1#8 ↔
      memRead s (fetchWord s) - s.acc = 1#8 ∧ s.acc.toNat ≤ (memRead s (fetchWord s)).toNat ∧
        (fetchWord s = 0#8 ∨ s.pc = 1#8) := by
  have hborrow : s.acc.toNat ≤ (memRead s (fetchWord s)).toNat ↔ cycleBorrow (fetchWord s) s = false := by
    rw [← Bool.not_eq_true, cycleBorrow_iff, not_lt]
  rw [afterCycle_pc, afterCycle_acc, hborrow, and_comm]
  refine and_congr_right fun hr => ?_
  by_cases hx : fetchWord s = 0#8
  · have hbase : cycleBase (fetchWord s) s = 1#8 := by rw [← hr]; exact if_pos hx
    rw [hbase]
    cases cycleBorrow (fetchWord s) s <;> simp [hx]
  · have hpc : s.pc ≠ 0#8 := fun h => hx (fetchWord_of_pc_zero h)
    rw [cycleBase_skip hx]
    cases cycleBorrow (fetchWord s) s
    · have hone : s.pc + 1#8 = 2#8 ↔ s.pc = 1#8 := by bv_omega
      simpa [hx] using hone
    · simp [hpc]

/-- Settles O38: the cause is OneLoop by the third case of the halt evaluation only, and PC = 2, A = 1 is a fixed point. -/
theorem oneLoopHaltExactlyAtPcTwoAccOne : Obligations.OneLoopHaltExactlyAtPcTwoAccOne := by
  intro s hinv hrun
  have hiff := afterCycle_cause_oneLoop_iff (x := fetchWord s) (hinv.cause_eq_none hrun)
  refine ⟨_, step_eq_afterCycle hrun, hiff, fun hc => ?_, fun hpc hacc => ?_,
    hiff.trans (afterCycle_reaches_oneLoop_iff s)⟩
  · obtain ⟨hpc, hacc⟩ := hiff.mp hc
    exact (afterCycle_of_oneLoop hpc hacc).1
  · rw [hiff, fetchWord_of_pc_two hpc]
    exact ⟨afterCycle_oneLoop_state hpc hacc, memRead_afterCycle_oneLoop_state hpc hacc⟩

end Sys2Proof.Machine
end

section
/-! PROOF. O49: the machine refines the closed form of R71, a commuting diagram for one cycle and an induction over the number of
cycles; and O40, which reads the closed form's signals. -/

namespace Sys2Proof.Machine

open ClosedForm

/-! ### The integers of the closed form, narrowed to bytes -/

theorem ofInt_toNat_sub_toNat (a b : Byte) : BitVec.ofInt 8 ((a.toNat : Int) - (b.toNat : Int)) = a - b := by
  have hresult : ((a - b).toNat : Int) = ((a.toNat : Int) - (b.toNat : Int)) % 256 := subBorrow_result_int_emod a b
  apply BitVec.eq_of_toNat_eq
  rw [BitVec.toNat_ofInt]
  omega

theorem ofNat_increments (base : Byte) (b : Bool) :
    BitVec.ofNat 8 (base.toNat + 1 + if b then 1 else 0) = base + (if b then 2#8 else 1#8) := by
  apply BitVec.eq_of_toNat_eq
  cases b <;> simp [BitVec.toNat_add, Nat.add_assoc]

/-! ### One cycle -/

/-- The values of R71 at a state of the machine. -/
theorem valuesOf_viewOf (s : State) :
    valuesOf (viewOf s) =
      { x := fetchWord s, xv := memRead s (fetchWord s), r := (afterCycle (fetchWord s) s).acc,
        b := cycleBorrow (fetchWord s) s, base := cycleBase (fetchWord s) s,
        overflow1 := decide ((cycleBase (fetchWord s) s).toNat = 255),
        overflow2 := cycleBorrow (fetchWord s) s && decide ((cycleBase (fetchWord s) s).toNat = 254),
        pc := (afterCycle (fetchWord s) s).pc } := by
  rw [afterCycle_acc, afterCycle_pc, ← ofNat_increments]
  unfold cycleBase
  rw [← ofInt_toNat_sub_toNat]
  rfl

/-- The two signals of R71 are the two ways an increment wraps. -/
theorem valuesOf_overflow_iff (s : State) :
    ((valuesOf (viewOf s)).overflow1 = true ∨ (valuesOf (viewOf s)).overflow2 = true) ↔ CycleWraps (fetchWord s) s := by
  simp [valuesOf_viewOf, CycleWraps, ← BitVec.toNat_inj]

/-- The cells of R71 are what the machine reads after the cycle. -/
theorem cellsAfter_viewOf (s : State) (y : Byte) :
    cellsAfter (viewOf s) y = memRead (afterCycle (fetchWord s) s) y := by
  unfold cellsAfter
  rw [valuesOf_viewOf]
  by_cases h0 : y = 0#8
  · rw [if_pos h0, h0, pc_eq]
  by_cases h1 : y = 1#8
  · rw [if_neg h0, if_pos h1, h1, acc_eq]
  · simp only [h0, h1, if_false, memRead_afterCycle _ s h0, or_false, afterCycle_acc]
    rfl

/-- The halt of R95 read off the machine's cycle, in each of the three ways a cycle ends. -/
theorem haltAfter_viewOf_of_wraps {s : State} (hwrap : CycleWraps (fetchWord s) s) :
    haltAfter (viewOf s) = some .pcOverflow :=
  if_pos ((valuesOf_overflow_iff s).mpr hwrap)

theorem haltAfter_viewOf_of_oneLoop {s : State} (hwrap : ¬ CycleWraps (fetchWord s) s)
    (hone : (afterCycle (fetchWord s) s).pc = 2#8 ∧ (afterCycle (fetchWord s) s).acc = 1#8) :
    haltAfter (viewOf s) = some .oneLoop := by
  rw [pc_eq, acc_eq] at hone
  simp [haltAfter, valuesOf_overflow_iff, cellsAfter_viewOf, hwrap, hone]

theorem haltAfter_viewOf_eq_none {s : State} (hwrap : ¬ CycleWraps (fetchWord s) s)
    (hone : ¬ ((afterCycle (fetchWord s) s).pc = 2#8 ∧ (afterCycle (fetchWord s) s).acc = 1#8)) :
    haltAfter (viewOf s) = none := by
  have hpc : (afterCycle (fetchWord s) s).pc ≠ 0#8 := fun h => hwrap (cycleWraps_of_pc_eq_zero h)
  rw [pc_eq] at hpc
  rw [pc_eq, acc_eq] at hone
  simp only [haltAfter, valuesOf_overflow_iff, cellsAfter_viewOf, hwrap, hpc, hone, false_and, if_false]

/-- RUN and CAUSE after the cycle are those the closed form's halt gives. -/
theorem afterCycle_run_cause_eq_haltAfter (s : State) :
    (afterCycle (fetchWord s) s).run = (if (haltAfter (viewOf s)).isSome then .halted else s.run) ∧
      (afterCycle (fetchWord s) s).cause = (haltAfter (viewOf s)).getD s.cause := by
  rcases afterCycle_cases (fetchWord s) s with ⟨hwrap, hhalt⟩ | ⟨hwrap, hone, hhalt⟩ | ⟨hwrap, hone, hsame⟩
  · rw [haltAfter_viewOf_of_wraps hwrap]; exact hhalt
  · rw [haltAfter_viewOf_of_oneLoop hwrap hone]; exact hhalt
  · rw [haltAfter_viewOf_eq_none hwrap hone]; exact hsame

/-- The commuting diagram: the view of the state after a cycle is the closed form's cycle of the view before it. -/
theorem viewOf_afterCycle (s : State) : viewOf (afterCycle (fetchWord s) s) = cycleView (viewOf s) := by
  obtain ⟨hrun, hcause⟩ := afterCycle_run_cause_eq_haltAfter s
  have hcells : memRead (afterCycle (fetchWord s) s) = cellsAfter (viewOf s) :=
    funext fun y => (cellsAfter_viewOf s y).symm
  rw [viewOf, hcells, hrun, hcause, afterCycle_mar, afterCycle_mdr, afterCycle_borrow]
  rfl

/-! ### Runs -/

theorem viewOf_runFor (n : Nat) (s : State) : viewOf (runFor n s) = runView n (viewOf s) := by
  induction n generalizing s with
  | zero => rfl
  | succ n ih =>
    cases hrun : s.run with
    | running =>
      have hview : (viewOf s).run = .running := hrun
      rw [runFor_succ_next (step_eq_afterCycle hrun), ih, viewOf_afterCycle, runView, if_pos hview]
    | halted => rw [runFor_halted hrun, runView, if_neg (by simp [viewOf, hrun])]

/-- Settles O49: the diagram of one cycle, and of every number of them. -/
theorem machineRefinesTheClosedForm : Obligations.MachineRefinesTheClosedForm :=
  ⟨fun s hrun => ⟨_, step_eq_afterCycle hrun, viewOf_afterCycle s⟩, viewOf_runFor⟩

/-- The last of `n + 1` cycles, while the core is Running. -/
theorem runFor_succ_of_running {n : Nat} {s : State} (hrun : (runFor n s).run = .running) :
    runFor (n + 1) s = afterCycle (fetchWord (runFor n s)) (runFor n s) :=
  runFor_succ_last n (step_eq_afterCycle hrun)

/-- Settles O40, by induction over the cycles: the core that is Running after `n` of them makes one more, which has no ground to
halt. -/
theorem noSpuriousHalt : Obligations.NoSpuriousHalt := by
  intro n s hrun hquiet
  induction n with
  | zero => exact hrun
  | succ n ih =>
    have hrun' : (runFor n s).run = .running := ih fun k hk => hquiet k (by omega)
    obtain ⟨h1, h2, -, hone⟩ := hquiet n (by omega)
    have hwrap : ¬ CycleWraps (fetchWord (runFor n s)) (runFor n s) := by
      rw [← valuesOf_overflow_iff, h1, h2]; simp
    rw [runFor_succ_of_running hrun'] at hone ⊢
    exact (afterCycle_run_of_no_halt hwrap hone).trans hrun'

end Sys2Proof.Machine
end

section
/-! PROOF. O3: the canonical form of the memory is canonical; and O31, the fixed point as an equation of whole states, which
rests on it. -/

namespace Sys2Proof.Machine

/-! ### The entries of a canonical memory are its reads -/

theorem cellAt_of_mem {m : Memory} (hrising : List.Pairwise (fun c d => c.1 < d.1) m) {c : Host.Cell} (hc : c ∈ m) :
    Memory.cellAt m c.1 = c.2 := by
  induction m with
  | nil => simp at hc
  | cons d rest ih =>
    obtain ⟨hd, hrest⟩ := List.pairwise_cons.mp hrising
    rcases List.mem_cons.mp hc with rfl | hc
    · exact if_pos rfl
    · exact (if_neg (hd c hc).ne).trans (ih hrest hc)

theorem mem_of_cellAt_ne_unlisted {m : Memory} {k : Nat} (h : Memory.cellAt m k ≠ Memory.unlisted) :
    (k, Memory.cellAt m k) ∈ m := by
  induction m with
  | nil => exact absurd rfl h
  | cons d rest ih =>
    by_cases hk : d.1 = k
    · obtain rfl := hk
      simp [Memory.cellAt]
    · rw [Memory.cellAt, if_neg hk] at h ⊢
      exact List.mem_cons_of_mem d (ih h)

/-- Every entry of a canonical memory is an entry of any memory that reads the same: it is listed because its value is not what
an unlisted address reads as. -/
theorem mem_subset_of_reads_eq {s t : State} (hs : Memory.wf s.mem) (hreads : ∀ a, memRead s a = memRead t a) :
    s.mem ⊆ t.mem := by
  obtain ⟨hrising, hentries⟩ := hs
  intro c hc
  obtain ⟨hvalue, hlt, hzero⟩ := hentries c hc
  have haddr : (BitVec.ofNat 8 c.1).toNat = c.1 := Nat.mod_eq_of_lt hlt
  have hne : BitVec.ofNat 8 c.1 ≠ 2#8 := fun h => hzero (haddr.symm.trans (congrArg BitVec.toNat h))
  have hread : Memory.cellAt t.mem c.1 = c.2 := by
    rw [← cellAt_of_mem hrising hc, ← haddr, ← memRead_storage s hne, ← memRead_storage t hne, hreads]
  have hmem := mem_of_cellAt_ne_unlisted (hread.trans_ne hvalue)
  rwa [hread] at hmem

/-- Settles O3: the two memories have the same entries, and both list them by rising address. -/
theorem equalReadsMeanEqualMemory : Obligations.EqualReadsMeanEqualMemory := by
  intro s t hs ht hreads
  have hasymm : Std.Antisymm (fun c d : Host.Cell => c.1 < d.1) := ⟨fun _ _ h h' => absurd h' h.asymm⟩
  have hirrefl : Std.Irrefl (fun c d : Host.Cell => c.1 < d.1) := ⟨fun _ => lt_irrefl _⟩
  exact List.Subset.antisymm_of_pairwise hs.1 ht.1 (mem_subset_of_reads_eq hs hreads)
    (mem_subset_of_reads_eq ht fun a => (hreads a).symm)

/-! ### The fixed point -/

theorem state_eq_of_fields {s t : State} (hmem : s.mem = t.mem) (hmar : s.mar = t.mar) (hmdr : s.mdr = t.mdr)
    (hborrow : s.borrow = t.borrow) (hrun : s.run = t.run) (hcause : s.cause = t.cause) : s = t := by
  rw [State.mk.injEq]
  exact ⟨hmem, hmar, hmdr, hborrow, hrun, hcause⟩

/-- At PC = 2, A = 1 the cycle writes what the cells hold already, so canonical memory is left as the same data. -/
theorem afterCycle_of_oneLoop_state {s : State} (hmem : Memory.wf s.mem) (hpc : s.pc = 2#8) (hacc : s.acc = 1#8) :
    afterCycle 0#8 s = { s with mar := 0#8, mdr := 2#8, borrow := false, run := .halted, cause := .oneLoop } := by
  obtain ⟨hpc', hacc'⟩ := afterCycle_oneLoop_state hpc hacc
  obtain ⟨hrun, hcause⟩ := afterCycle_of_oneLoop hpc' hacc'
  have hsame : (afterCycle 0#8 s).mem = s.mem :=
    equalReadsMeanEqualMemory _ _ (afterCycle_wf hmem 0#8) hmem (memRead_afterCycle_oneLoop_state hpc hacc)
  have hmdr : (afterCycle 0#8 s).mdr = 2#8 := (afterCycle_mdr 0#8 s).trans hpc
  have hborrow : (afterCycle 0#8 s).borrow = false := by rw [afterCycle_borrow, cycleBorrow, ← pc_eq, hpc, hacc]; rfl
  exact state_eq_of_fields hsame (afterCycle_mar 0#8 s) hmdr hborrow hrun hcause

/-- Settles O31: the jump by 2 - 1 comes back to the same cells and halts; the jump by 0 - 0 goes on to PC = 1. -/
theorem oneLoopStateIsAFixedPoint : Obligations.OneLoopStateIsAFixedPoint := by
  refine ⟨fun s hmem hrun hpc hacc => ?_, fun s hrun hpc hacc => ?_⟩
  · rw [step_eq_afterCycle hrun, fetchWord_of_pc_two hpc, afterCycle_of_oneLoop_state hmem hpc hacc]
  · obtain ⟨t, hstep, -, ht⟩ := step_of_zeroLoop_state hrun hpc hacc
    exact ⟨t, hstep, ht⟩

end Sys2Proof.Machine
end

section
/-! PROOF. O21 and O34: what RSSB leaves unchanged (R83), and that the next fetch sees what it wrote (R43). -/

namespace Sys2Proof.Machine

theorem ne_of_three_le {y : Byte} (h : 3 ≤ y.toNat) : y ≠ 0#8 ∧ y ≠ 1#8 ∧ y ≠ 2#8 := by
  refine ⟨?_, ?_, ?_⟩ <;> rintro rfl <;> simp at h

/-- Settles O21: the effective address is the operand address itself, and each halt of the cycle has a cause. -/
theorem rssbFrame : Obligations.RssbFrame := by
  intro x s t hexec
  obtain rfl : afterCycle x s = t := Host.Outcome.next.inj hexec
  have hframe (y : Byte) (h0 : y ≠ 0#8) (h1 : y ≠ 1#8) (hx : y ≠ x) := memRead_afterCycle_other x s h0 h1 hx
  refine ⟨hframe, fun hx y => ?_, hframe s.pc, ?_⟩
  · exact memRead_afterCycle_of_low_operand s (.inr (.inr hx))
  · rcases afterCycle_cases x s with ⟨-, hr, hc⟩ | ⟨-, -, hr, hc⟩ | ⟨-, -, hsame⟩
    · exact .inr ⟨hr, by simp [hc]⟩
    · exact .inr ⟨hr, by simp [hc]⟩
    · exact .inl hsame

/-- Settles O34: the next step runs the word read through the new PC, and that read is of the operand cell, of A, or of a cell the
cycle left alone. -/
theorem nextFetchSeesTheWrite : Obligations.NextFetchSeesTheWrite := by
  intro s hrun
  let t := afterCycle (fetchWord s) s
  have hnext {w : Byte} (hw : memRead t t.pc = w) (hrun' : t.run = .running) : step t = exec (.rssb w) t :=
    hw ▸ step_eq_exec_of_running hrun'
  refine ⟨t, step_eq_afterCycle hrun, fun hx hpc => hnext ?_, fun hpc => hnext ?_, fun h3 hpc => hnext ?_⟩
  · obtain ⟨h0, -, h2⟩ := ne_of_three_le hx
    rw [hpc]
    exact memRead_afterCycle_operand s h0 h2
  · rw [hpc]
    exact afterCycle_acc _ s
  · obtain ⟨h0, h1, -⟩ := ne_of_three_le h3
    exact memRead_afterCycle_other _ s h0 h1 hpc

end Sys2Proof.Machine
end

section
/-! PROOF. O22 to O29: the corner cases of the cycle (41_rssb.md sections 5 and 6), each the closed form of the completed cycle at
the operand address or the PC it speaks of. -/

namespace Sys2Proof.Machine

variable {s : State}

/-! ### The borrow and the PC in the cases the corner cases share -/

theorem afterCycle_pc_of_borrow {x : Byte} (hb : cycleBorrow x s = true) :
    (afterCycle x s).pc = cycleBase x s + 2#8 := by
  rw [afterCycle_pc, hb]; rfl

theorem afterCycle_pc_of_no_borrow {x : Byte} (hb : cycleBorrow x s = false) :
    (afterCycle x s).pc = cycleBase x s + 1#8 := by
  rw [afterCycle_pc, hb]; rfl

/-- A value never borrows from itself, so operand address 1 never skips. -/
theorem cycleBorrow_one : cycleBorrow 1#8 s = false := by
  simp [cycleBorrow, borrowFlag, ← acc_eq]

/-- An operand value of 0 borrows whenever A is not 0. -/
theorem cycleBorrow_of_zero_operand {x : Byte} (h : memRead s x = 0#8) : cycleBorrow x s = true ↔ s.acc ≠ 0#8 := by
  have hzero : s.acc = 0#8 ↔ s.acc.toNat = 0 := BitVec.toNat_inj.symm
  rw [cycleBorrow_iff, h, ne_eq, hzero]
  exact Nat.pos_iff_ne_zero

theorem afterCycle_pc_of_zero_operand {x : Byte} (h : memRead s x = 0#8) :
    (afterCycle x s).pc = cycleBase x s + (if s.acc = 0#8 then 1#8 else 2#8) := by
  rw [afterCycle_pc]
  by_cases hacc : s.acc = 0#8
  · rw [if_pos hacc, if_neg (fun hb => (cycleBorrow_of_zero_operand h).mp hb hacc)]
  · rw [if_neg hacc, if_pos ((cycleBorrow_of_zero_operand h).mpr hacc)]

/-- A cycle whose increments start from 255 halts with PcOverflow. -/
theorem afterCycle_halt_of_base_255 {x : Byte} (h : cycleBase x s = 255#8) :
    (afterCycle x s).run = .halted ∧ (afterCycle x s).cause = .pcOverflow ∧
      (afterCycle x s).pc = if cycleBorrow x s then 1#8 else 0#8 := by
  obtain ⟨hrun, hcause⟩ := afterCycle_of_wraps (.inl h)
  exact ⟨hrun, hcause, afterCycle_pc_of_base_255 h⟩

/-- So does one that borrows and whose increments start from 254. -/
theorem afterCycle_halt_of_base_254 {x : Byte} (hb : cycleBorrow x s = true) (h : cycleBase x s = 254#8) :
    (afterCycle x s).run = .halted ∧ (afterCycle x s).cause = .pcOverflow ∧ (afterCycle x s).pc = 0#8 := by
  obtain ⟨hrun, hcause⟩ := afterCycle_of_wraps (.inr ⟨hb, h⟩)
  exact ⟨hrun, hcause, afterCycle_pc_of_base_254 hb h⟩

/-- A jump with a result of 1 and no borrow ends in the one loop. -/
theorem afterCycle_jump_to_oneLoop (hr : s.pc - s.acc = 1#8) (hb : cycleBorrow 0#8 s = false) :
    (afterCycle 0#8 s).run = .halted ∧ (afterCycle 0#8 s).cause = .oneLoop ∧
      (afterCycle 0#8 s).pc = 2#8 ∧ (afterCycle 0#8 s).acc = 1#8 := by
  have hpc : (afterCycle 0#8 s).pc = 2#8 := by
    rw [afterCycle_pc_of_no_borrow hb, cycleBase_jump, hr]; rfl
  have hacc : (afterCycle 0#8 s).acc = 1#8 := (afterCycle_acc 0#8 s).trans hr
  obtain ⟨hrun, hcause⟩ := afterCycle_of_oneLoop hpc hacc
  exact ⟨hrun, hcause, hpc, hacc⟩

/-! ### Operand addresses 0, 1, 2 and the instruction's own cell -/

/-- Settles O22: the increments of a jump start from its result. -/
theorem operandZeroJumps : Obligations.OperandZeroJumps := by
  intro s hrun hx
  refine ⟨_, step_eq_afterCycle hrun, ?_⟩
  rw [hx]
  exact ⟨afterCycle_acc 0#8 s, afterCycle_pc 0#8 s, afterCycle_mar 0#8 s, afterCycle_mdr 0#8 s, afterCycle_borrow 0#8 s,
    fun y => memRead_afterCycle_of_low_operand s (.inl rfl),
    fun hr => afterCycle_halt_of_base_255 hr,
    fun hr hb => afterCycle_halt_of_base_254 hb hr,
    fun hr hb => afterCycle_jump_to_oneLoop hr hb⟩

/-- Settles O23: A minus A is 0 without a borrow. -/
theorem operandOneClearsA : Obligations.OperandOneClearsA := by
  intro s hrun hx
  refine ⟨_, step_eq_afterCycle hrun, ?_⟩
  rw [hx]
  refine ⟨?_, ?_, afterCycle_mar 1#8 s, afterCycle_mdr 1#8 s, (afterCycle_borrow 1#8 s).trans cycleBorrow_one,
    fun y => memRead_afterCycle_of_low_operand s (.inr (.inl rfl))⟩
  · rw [afterCycle_acc, ← acc_eq, BitVec.sub_self]
  · rw [afterCycle_pc_of_no_borrow cycleBorrow_one, cycleBase_skip (by decide)]

/-- Settles O24: the operand value is the zero cell's, and the write to it is discarded. -/
theorem operandTwoNegatesA : Obligations.OperandTwoNegatesA := by
  intro s hrun hx
  refine ⟨_, step_eq_afterCycle hrun, ?_⟩
  rw [hx]
  have hzero : memRead s 2#8 = 0#8 := memRead_zeroAddr s
  have hacc : (afterCycle 2#8 s).acc = 0#8 - s.acc := afterCycle_acc 2#8 s
  have hborrow : (afterCycle 2#8 s).borrow = true ↔ s.acc ≠ 0#8 := by
    rw [afterCycle_borrow, cycleBorrow_of_zero_operand hzero]
  refine ⟨hacc, afterCycle_pc_of_zero_operand hzero, afterCycle_mar 2#8 s, afterCycle_mdr 2#8 s, hborrow, memRead_zeroAddr _,
    fun y => memRead_afterCycle_of_low_operand s (.inr (.inr rfl)), fun ha => ?_, fun ha => ?_⟩
  · rw [hacc, ha]; rfl
  · rw [hacc, hborrow, ha]; decide

/-- Settles O25: the operand value is the word just fetched, which is the PC. -/
theorem operandNamesItsOwnCell : Obligations.OperandNamesItsOwnCell := by
  intro s hrun hpc hx
  obtain ⟨h0, -, h2⟩ := ne_of_three_le hpc
  have hvalue : memRead s s.pc = s.pc := hx
  have hborrow : cycleBorrow s.pc s = decide (s.pc.toNat < s.acc.toNat) := by rw [cycleBorrow, hvalue]; rfl
  refine ⟨_, step_eq_afterCycle hrun, ?_⟩
  rw [hx]
  refine ⟨?_, ?_, ?_, afterCycle_mar s.pc s, ?_, ?_⟩
  · rw [afterCycle_acc, hvalue]
  · rw [memRead_afterCycle_operand s h0 h2, hvalue]
  · rw [afterCycle_pc, cycleBase_skip h0, hborrow]
  · rw [afterCycle_mdr, hvalue]
  · rw [afterCycle_borrow, hborrow]

/-! ### The PC pointing at cells 0, 1 and 2 -/

/-- Settles O26: the cycle is a jump with operand value 0, so its result is 0 - A. -/
theorem executingCellZero : Obligations.ExecutingCellZero := by
  intro s hrun hpc
  refine ⟨_, step_eq_afterCycle hrun, ?_⟩
  rw [fetchWord_of_pc_zero hpc]
  have hzero : memRead s 0#8 = 0#8 := hpc
  have hbase : cycleBase 0#8 s = 0#8 - s.acc := by rw [cycleBase_jump, hpc]
  have hacc : (afterCycle 0#8 s).acc = 0#8 - s.acc := by rw [afterCycle_acc, hzero]
  have hpc' := afterCycle_pc_of_zero_operand hzero
  have hborrow := cycleBorrow_of_zero_operand hzero
  rw [hbase] at hpc'
  refine ⟨hacc, hpc', afterCycle_mar 0#8 s, (afterCycle_mdr 0#8 s).trans hzero, ?_, fun ha => ?_, fun ha => ?_, fun ha => ?_⟩
  · rw [afterCycle_borrow, hborrow]
  · have hp : (afterCycle 0#8 s).pc = 1#8 := by rw [hpc', ha]; rfl
    have hwrap : ¬ CycleWraps 0#8 s := by simp [CycleWraps, hbase, ha]
    exact ⟨hp, by rw [hacc, ha]; rfl, (afterCycle_run_of_no_halt hwrap (by simp [hp])).trans hrun⟩
  · have hb : cycleBorrow 0#8 s = true := hborrow.mpr (by simp [ha])
    simpa [hb] using afterCycle_halt_of_base_255 (x := 0#8) (s := s) (by rw [hbase, ha]; rfl)
  · exact afterCycle_halt_of_base_254 (hborrow.mpr (by simp [ha])) (by rw [hbase, ha]; rfl)

/-- Settles O27: the operand address is A's value, so the increments start from PC = 1, but for A = 0, which is a jump by
1 - 0. -/
theorem executingTheAccumulator : Obligations.ExecutingTheAccumulator := by
  intro s hrun hpc
  refine ⟨_, step_eq_afterCycle hrun, ?_⟩
  rw [fetchWord_of_pc_one hpc]
  have hacc := afterCycle_acc s.acc s
  have hpc' (h0 : s.acc ≠ 0#8) : (afterCycle s.acc s).pc = if cycleBorrow s.acc s then 3#8 else 2#8 := by
    rw [afterCycle_pc, cycleBase_skip h0, hpc]
    cases cycleBorrow s.acc s <;> rfl
  refine ⟨hacc, afterCycle_mar _ s, afterCycle_mdr _ s, afterCycle_borrow _ s, hpc', fun ha => ?_, fun ha => ?_, fun ha => ?_,
    fun ha => ?_⟩
  · have hb : cycleBorrow 0#8 s = false := by rw [cycleBorrow, ha]; simp [borrowFlag]
    obtain ⟨hr, hc, hp, ha'⟩ := afterCycle_jump_to_oneLoop (s := s) (by rw [hpc, ha]; rfl) hb
    rw [ha]
    exact ⟨hp, ha', hr, hc⟩
  · have hb : cycleBorrow s.acc s = false := by rw [ha, cycleBorrow_one]
    have hp : (afterCycle s.acc s).pc = 2#8 := by rw [hpc' (by simp [ha]), hb]; rfl
    have ha' : (afterCycle s.acc s).acc = 0#8 := by rw [hacc, ha, ← acc_eq, ha]; rfl
    have hwrap : ¬ CycleWraps s.acc s := fun h => by simpa [hp] using h.pc_le_one
    exact ⟨hp, ha', (afterCycle_run_of_no_halt hwrap (by simp [ha'])).trans hrun⟩
  · have hzero : memRead s s.acc = 0#8 := by rw [ha, memRead_zeroAddr]
    have hb : cycleBorrow s.acc s = true := (cycleBorrow_of_zero_operand hzero).mpr (by simp [ha])
    refine ⟨?_, ?_, (afterCycle_borrow _ s).trans hb⟩
    · rw [hpc' (by simp [ha]), hb]; rfl
    · rw [hacc, hzero, ha]; rfl
  · obtain ⟨h0, -, h2⟩ := ne_of_three_le ha
    exact memRead_afterCycle_operand s h0 h2

/-- Settles O28: the cycle is a jump with operand value 2, so its result is 2 - A. -/
theorem executingTheZeroCell : Obligations.ExecutingTheZeroCell := by
  intro s hrun hpc
  refine ⟨_, step_eq_afterCycle hrun, ?_⟩
  rw [fetchWord_of_pc_two hpc]
  have hvalue : memRead s 0#8 = 2#8 := hpc
  have hbase : cycleBase 0#8 s = 2#8 - s.acc := by rw [cycleBase_jump, hpc]
  have hborrow : cycleBorrow 0#8 s = decide (2 < s.acc.toNat) := by rw [cycleBorrow, hvalue]; rfl
  have hacc : (afterCycle 0#8 s).acc = 2#8 - s.acc := by rw [afterCycle_acc, hvalue]
  have hpc' : (afterCycle 0#8 s).pc = 2#8 - s.acc + (if decide (2 < s.acc.toNat) then 2#8 else 1#8) := by
    rw [afterCycle_pc, hbase, hborrow]
  refine ⟨hacc, hpc', afterCycle_mar 0#8 s, (afterCycle_mdr 0#8 s).trans hvalue, (afterCycle_borrow 0#8 s).trans hborrow,
    fun ha => ?_, fun ha => ?_, fun ha => ?_, fun ha => ?_, fun ha => ?_⟩
  · rw [hacc, hpc', ha]; decide
  · exact ⟨by rw [hacc, ha]; rfl, (afterCycle_oneLoop_state hpc ha).1, memRead_afterCycle_oneLoop_state hpc ha⟩
  · rw [hacc, hpc', ha]; decide
  · have hb : cycleBorrow 0#8 s = true := by rw [hborrow, ha]; rfl
    simpa [hb] using afterCycle_halt_of_base_255 (x := 0#8) (s := s) (by rw [hbase, ha]; rfl)
  · exact afterCycle_halt_of_base_254 (by rw [hborrow, ha]; rfl) (by rw [hbase, ha]; rfl)

/-! ### The top of the address space -/

/-- Settles O29: without a jump the increments start from the old PC; a jump at 255 that does not wrap can only meet the one
loop. -/
theorem codeCannotRunPastTheTop : Obligations.CodeCannotRunPastTheTop := by
  intro s hrun
  refine ⟨_, step_eq_afterCycle hrun, afterCycle_acc _ s, afterCycle_mar _ s, afterCycle_mdr _ s, afterCycle_borrow _ s,
    memRead_afterCycle_operand s, fun hx hpc => ?_, fun hx hpc hb => ?_, fun hx hpc hb => ?_, fun hx hpc h255 h254 hhalt => ?_⟩
  · exact afterCycle_halt_of_base_255 ((cycleBase_skip hx).trans hpc)
  · exact afterCycle_halt_of_base_254 hb ((cycleBase_skip hx).trans hpc)
  · have hbase : cycleBase (fetchWord s) s = 254#8 := (cycleBase_skip hx).trans hpc
    have hp : (afterCycle (fetchWord s) s).pc = 255#8 := by rw [afterCycle_pc_of_no_borrow hb, hbase]; rfl
    have hwrap : ¬ CycleWraps (fetchWord s) s := fun h => by simpa [hp] using h.pc_le_one
    exact ⟨(afterCycle_run_of_no_halt hwrap (by simp [hp])).trans hrun, hp⟩
  · have hbase : cycleBase (fetchWord s) s = memRead s (fetchWord s) - s.acc := if_pos hx
    have hwrap : ¬ CycleWraps (fetchWord s) s := by
      rintro (h | ⟨hb, h⟩)
      · exact h255 (hbase.symm.trans h)
      · exact h254 ⟨hbase.symm.trans h, hb⟩
    by_contra hone
    simp [afterCycle_run_of_no_halt hwrap hone, hrun] at hhalt

end Sys2Proof.Machine
end

section
/-! PROOF. O43, O41, O42, O44 and O45: the runs of a core, which end at most once (R98, R102, R104), and the snapshot of the
halted state (R100). -/

namespace Sys2Proof.Machine

variable {s : State}

/-! ### How runs continue and end -/

theorem runFor_add (n m : Nat) (s : State) : runFor (n + m) s = runFor m (runFor n s) := by
  induction n generalizing s with
  | zero => rw [Nat.zero_add]; rfl
  | succ n ih =>
    cases hrun : s.run with
    | running =>
      have hstep := step_eq_afterCycle hrun
      rw [Nat.succ_add, runFor_succ_next hstep, runFor_succ_next hstep, ih]
    | halted => rw [runFor_halted hrun, runFor_halted hrun, runFor_halted hrun]

/-- Two halted states of one run are the same: the later one is the earlier, unchanged. -/
theorem RunEndsIn.unique {t u : State} (ht : RunEndsIn s t) (hu : RunEndsIn s u) : t = u := by
  obtain ⟨n, rfl, hn⟩ := ht
  obtain ⟨m, rfl, hm⟩ := hu
  calc runFor n s = runFor (n + m) s := by rw [runFor_add, runFor_halted hn]
    _ = runFor (m + n) s := by rw [Nat.add_comm]
    _ = runFor m s := by rw [runFor_add, runFor_halted hm]

theorem not_runEndsIn_of_runsForever (h : RunsForever s) (t : State) : ¬ RunEndsIn s t := by
  rintro ⟨n, rfl, hhalt⟩
  simp [h n] at hhalt

theorem runEndsIn_of_not_runsForever (h : ¬ RunsForever s) : ∃ t, RunEndsIn s t := by
  obtain ⟨n, hn⟩ := not_forall.mp h
  refine ⟨runFor n s, n, rfl, ?_⟩
  cases hrun : (runFor n s).run with
  | running => exact absurd hrun hn
  | halted => rfl

/-- A core that starts Running ends only after a cycle. -/
theorem runEndsIn_iff_of_running (hrun : s.run = .running) (t : State) :
    RunEndsIn s t ↔ ∃ n, runFor (n + 1) s = t ∧ t.run = .halted := by
  refine ⟨fun ⟨n, hn, hhalt⟩ => ?_, fun ⟨n, hn⟩ => ⟨n + 1, hn⟩⟩
  cases n with
  | zero =>
    obtain rfl : s = t := hn
    simp [hrun] at hhalt
  | succ n => exact ⟨n, hn, hhalt⟩

/-- Settles O43: the step answers no next state, so the run stays. -/
theorem haltedIsTerminal : Obligations.HaltedIsTerminal :=
  fun _ hhalt => ⟨fun t => by simp [step_of_halted hhalt], runFor_halted hhalt⟩

/-! ### What a core shows -/

theorem observe_of_running (h : s.run = .running) : observe s = none := by
  simp [observe, h]

theorem observe_of_halted (h : s.run = .halted) : observe s = some (snapshotOf s) := by
  simp [observe, h]

theorem runReturns_iff (s : State) (u : Snapshot) : RunReturns s u ↔ ∃ t, RunEndsIn s t ∧ snapshotOf t = u := by
  refine exists_congr fun t => and_congr_right fun ⟨_, _, hhalt⟩ => ?_
  rw [observe_of_halted hhalt, Option.some.injEq]

/-- Settles O41: both snapshots are of the one halted state of the run. -/
theorem runReturnsAtMostOneSnapshot : Obligations.RunReturnsAtMostOneSnapshot := by
  intro s u v hu hv
  obtain ⟨t, ht, rfl⟩ := (runReturns_iff s u).mp hu
  obtain ⟨t', ht', rfl⟩ := (runReturns_iff s v).mp hv
  rw [ht.unique ht']

/-- Settles O42: a run without a halted state goes on by one completed cycle after another. -/
theorem runReturnsOrGoesOnForever : Obligations.RunReturnsOrGoesOnForever := by
  intro s
  by_cases hforever : RunsForever s
  · exact .inr ⟨hforever, fun n => ⟨_, step_eq_afterCycle (hforever n), runFor_succ_of_running (hforever n)⟩,
      fun u ⟨t, ht, _⟩ => not_runEndsIn_of_runsForever hforever t ht⟩
  · obtain ⟨t, ht⟩ := runEndsIn_of_not_runsForever hforever
    exact .inl ⟨⟨snapshotOf t, (runReturns_iff s _).mpr ⟨t, ht, rfl⟩⟩, hforever⟩

/-! ### The diagnostic registers before the first cycle -/

/-- The first cycle overwrites MAR, MDR and BORROW unread. -/
theorem runFor_succ_setDiagnostics (n : Nat) (s : State) (hrun : s.run = .running) (mar mdr : Byte) (b : Bool) :
    runFor (n + 1) (s.setDiagnostics mar mdr b) = runFor (n + 1) s := by
  have hstep := step_eq_afterCycle hrun
  rw [runFor_succ_next hstep, runFor_succ_next ((step_setDiagnostics s mar mdr b).trans hstep)]

/-- Settles O44: a running core ends only after its first cycle, from which on the two runs are one. -/
theorem initialDiagnosticsAreInvisible : Obligations.InitialDiagnosticsAreInvisible := by
  intro s mar mdr b u hrun
  refine exists_congr fun t => and_congr_left fun _ => ?_
  rw [runEndsIn_iff_of_running hrun, runEndsIn_iff_of_running (s := { s with mar := mar, mdr := mdr, borrow := b }) hrun]
  simp only [← runFor_succ_setDiagnostics _ s hrun mar mdr b]
  rfl

/-! ### The snapshot -/

theorem memoryImage_length (s : State) : (memoryImage s).length = 256 := by
  simp [memoryImage]

/-- Entry `a` of the memory in a snapshot is the read of address `a`. -/
theorem memoryImage_getElem? (s : State) (a : Byte) : (memoryImage s)[a.toNat]? = some (memRead s a) := by
  have hlt : a.toNat < 256 := a.isLt
  simp [memoryImage, List.getElem?_range hlt]

/-- Settles O45: the fields are the halted state's, and entries 0, 1 and 2 are reads of the PC, A and the zero cell. -/
theorem snapshotShowsTheHaltedState : Obligations.SnapshotShowsTheHaltedState := by
  refine fun s => ⟨observe_of_running, fun hhalt => ⟨snapshotOf s, observe_of_halted hhalt, ?_⟩⟩
  have hentry := memoryImage_getElem? s
  exact ⟨rfl, rfl, memRead_zeroAddr s, rfl, rfl, rfl, rfl, memoryImage_length s, hentry, hentry 0#8, hentry 1#8, hentry 2#8⟩

end Sys2Proof.Machine
end

section
/-! PROOF. O4 to O8 and O50: reset, load and lifetime (R22, R36, R37, R99), and the placing of a word (log entry 9). -/

namespace Sys2Proof.Machine

/-! ### Reset and load -/

theorem memRead_reset (a : Byte) : memRead State.reset a = 0#8 := by
  unfold memRead
  split <;> rfl

/-- Settles O4: the reset memory lists no cell. -/
theorem resetLeavesZeroedRunningCore : Obligations.ResetLeavesZeroedRunningCore :=
  ⟨memRead_reset, memRead_reset 0#8, memRead_reset 1#8, rfl, rfl, rfl, rfl, rfl⟩

/-- Settles O5: the load replaces the memory, and only it. -/
theorem loadFillsEveryCell : Obligations.LoadFillsEveryCell := by
  intro image s
  refine ⟨fun a => ?_, rfl, rfl, rfl, rfl, rfl⟩
  by_cases ha : a = 2#8
  · rw [if_pos ha, ha, memRead_zeroAddr]
  · have hlt : a.toNat < Config.imageLen := a.isLt
    rw [if_neg ha, memRead_load image s a ha]
    simp [List.getD, hlt]

/-! ### The byte source -/

theorem loadFrom_short {src : List Byte} (h : src.length < 256) (s : State) : loadFrom src s = .fault .loadError := by
  have hnone : imageOfSource src = none := dif_neg (not_le.mpr h)
  rw [loadFrom, hnone]

/-- A source whose first 256 bytes are an image loads that image. -/
theorem loadFrom_of_take {src : List Byte} {image : Image} (h : image.toList = src.take 256) (s : State) :
    loadFrom src s = .next (load image s) := by
  have hlen : 256 ≤ src.length := by simpa using congrArg List.length h
  have himage : imageOfSource src = some image := by
    rw [imageOfSource, dif_pos hlen, Option.some.injEq]
    exact Vector.toList_inj.mp h.symm
  rw [loadFrom, himage]

/-- A source of at least 256 bytes begins with an image. -/
theorem exists_image_of_take {src : List Byte} (h : 256 ≤ src.length) : ∃ image : Image, image.toList = src.take 256 :=
  ⟨⟨(src.take 256).toArray, by simpa using h⟩, rfl⟩

/-- Settles O6: the two answers of the byte source. -/
theorem sourceIsCutOrRejected : Obligations.SourceIsCutOrRejected :=
  fun _ s => ⟨fun h => loadFrom_short h s, fun _ h => loadFrom_of_take h s⟩

/-! ### Lifetimes -/

theorem deliver_start_short {src : List Byte} (h : src.length < 256) :
    Lifetime.start.deliver src = .next { phase := .loadFailed, core := State.reset } := by
  simp [Lifetime.deliver, Lifetime.start, loadFrom_short h]

theorem deliver_start_of_take {src : List Byte} {image : Image} (h : image.toList = src.take 256) :
    Lifetime.start.deliver src = .next { phase := .loaded, core := init image } := by
  simp [Lifetime.deliver, Lifetime.start, loadFrom_of_take h, init]

/-- A cycle of a loaded core is a step of it. -/
theorem cycle_loaded {s t : State} (h : step s = .next t) :
    Lifetime.cycle { phase := .loaded, core := s } = .next { phase := .loaded, core := t } := by
  simp [Lifetime.cycle, h]

/-- Settles O7: a failed load has no cycle, takes no delivery and shows nothing; a loaded core is Running, so a cycle follows. -/
theorem failedLoadNeverRuns : Obligations.FailedLoadNeverRuns := by
  refine ⟨fun src hshort => ?_, fun src hlong => ?_⟩
  · exact ⟨_, deliver_start_short hshort, rfl, fun l' => by simp [Lifetime.cycle],
      fun src' l' => by simp [Lifetime.deliver], rfl⟩
  · obtain ⟨image, himage⟩ := exists_image_of_take hlong
    exact ⟨_, deliver_start_of_take himage, _, cycle_loaded (step_eq_afterCycle (init_run image))⟩

/-- Settles O8: an equation of the lifetime for each phase. -/
theorem lifetimeIsResetLoadRun : Obligations.LifetimeIsResetLoadRun := by
  intro image
  have htake : image.toList = image.toList.take 256 := (List.take_of_length_le (by simp)).symm
  exact ⟨fun l => by simp [Lifetime.cycle, Lifetime.start], deliver_start_of_take htake,
    fun s => ⟨fun t => cycle_loaded, fun src l => by simp [Lifetime.deliver], observe_of_running, observe_of_halted⟩⟩

/-! ### The placing of a word -/

theorem placeWord_run (w : Byte) (s : State) : (placeWord w s).run = .running := by
  unfold placeWord
  split <;> rfl

/-- The PC points at the word placed: in its own cell from 3 on, else in the general-purpose cell it is moved to. -/
theorem fetchWord_placeWord (w : Byte) (s : State) : fetchWord (placeWord w s) = w := by
  by_cases hpc : s.pc.toNat < 3
  · have hread (a : Byte) : memRead (placeWord w s) a = memRead (memWrite (memWrite s 0#8 16#8) 16#8 w) a :=
      memRead_congr (by rw [placeWord, if_pos hpc]; rfl) a
    have hpc' : (placeWord w s).pc = 16#8 := by
      rw [pc_eq, hread, memRead_memWrite_of_ne _ (by decide), memRead_memWrite_same s (by decide)]
    rw [fetchWord, hpc', hread, memRead_memWrite_same _ (by decide)]
  · have hread (a : Byte) : memRead (placeWord w s) a = memRead (memWrite s s.pc w) a :=
      memRead_congr (by rw [placeWord, if_neg hpc]) a
    obtain ⟨h0, -, h2⟩ := ne_of_three_le (not_lt.mp hpc)
    have hpc' : (placeWord w s).pc = s.pc := by
      rw [pc_eq, hread, memRead_memWrite_of_ne _ h0.symm, ← pc_eq]
    rw [fetchWord, hpc', hread, memRead_memWrite_same s h2]

/-- The table word of a byte is the byte. -/
theorem ofNat_toNat_mod (w : Byte) : BitVec.ofNat 8 (w.toNat % 2 ^ 8) = w := by
  rw [Nat.mod_eq_of_lt w.isLt, BitVec.ofNat_toNat, BitVec.setWidth_eq]

theorem withFetchWord_byte (s : State) (w : Byte) : s.withFetchWord 8 w.toNat = placeWord w s :=
  congrArg (placeWord · s) (ofNat_toNat_mod w)

/-- Settles O50: the core with the word placed is Running and fetches that word. -/
theorem placedWordRunsNext : Obligations.PlacedWordRunsNext := by
  intro s w
  rw [withFetchWord_byte, step_eq_afterCycle (placeWord_run w s), fetchWord_placeWord]
  exact ⟨_, rfl, exec_rssb w _⟩

end Sys2Proof.Machine
end

section
/-! PROOF. O12 and O13: the laws of the two functions of the ALU (R62, R64), as two cases of the subtraction and the signals of the
increments. -/

namespace Sys2Proof.Machine

theorem borrowFlag_eq_false_iff (a b : Byte) : borrowFlag a b = false ↔ b.toNat ≤ a.toNat := by
  rw [← Bool.not_eq_true, borrowFlag_iff, not_lt]

/-- The difference modulo 256, in natural numbers: the adder identity of R62. -/
theorem subBorrow_result_toNat (a b : Byte) : (subBorrow a b).1.toNat = (a.toNat + (255 - b.toNat) + 1) % 256 := by
  have hint := subBorrow_result_int_emod a b
  have hb : b.toNat < 256 := b.isLt
  omega

theorem subBorrow_of_borrow {a b : Byte} (h : a.toNat < b.toNat) :
    (subBorrow a b).1.toNat = a.toNat + 256 - b.toNat ∧ (subBorrow a b).2 = true := by
  refine ⟨?_, (borrowFlag_iff a b).mpr h⟩
  have hb : b.toNat < 256 := b.isLt
  rw [subBorrow_result_toNat]
  omega

theorem subBorrow_of_no_borrow {a b : Byte} (h : b.toNat ≤ a.toNat) :
    (subBorrow a b).1.toNat = a.toNat - b.toNat ∧ (subBorrow a b).2 = false := by
  refine ⟨?_, (borrowFlag_eq_false_iff a b).mpr h⟩
  have ha : a.toNat < 256 := a.isLt
  rw [subBorrow_result_toNat]
  omega

theorem subBorrow_self (a : Byte) : subBorrow a a = (0#8, false) := by
  simp [subBorrow, borrowFlag]

theorem subBorrow_zero (a : Byte) : subBorrow a 0#8 = (a, false) := by
  simp [subBorrow, borrowFlag]

/-- A result of 0 comes from equal arguments only. -/
theorem subBorrow_result_eq_zero {a b : Byte} (h : (subBorrow a b).1 = 0#8) : (subBorrow a b).2 = false := by
  have hdiff : a - b = 0#8 := h
  have heq : a = b := by bv_omega
  rw [heq, subBorrow_self]

/-- Settles O12: each law is one of the two cases of the borrow. -/
theorem subtractionLaws : Obligations.SubtractionLaws := by
  intro a b
  refine ⟨subBorrow_self a, subBorrow_zero a, fun hb => ?_, fun h => subBorrow_of_no_borrow h.le, subBorrow_of_borrow,
    subBorrow_result_eq_zero, subBorrow_result_toNat a b, ?_⟩
  · have hpos : (0#8).toNat < b.toNat := Nat.pos_of_ne_zero fun h => hb (BitVec.eq_of_toNat_eq h)
    obtain ⟨hresult, hflag⟩ := subBorrow_of_borrow hpos
    exact ⟨by simpa using hresult, hflag⟩
  · have hflag : (subBorrow a b).2 = false ↔ b.toNat ≤ a.toNat := borrowFlag_eq_false_iff a b
    have hb : b.toNat < 256 := b.isLt
    rw [hflag]
    omega

/-- Settles O13: the first increment wraps from 255 and the second from 254 only. -/
theorem atMostOneIncrementOverflows : Obligations.AtMostOneIncrementOverflows := by
  intro b s ⟨h1, h2⟩
  obtain ⟨hfirst, hsecond⟩ := advancePc_signals b s
  simp only [hfirst, decide_eq_true_eq] at h1
  simp [hsecond, h1] at h2

end Sys2Proof.Machine
end

section
/-! PROOF. O14 to O16: the decoder (R50, R51, R53); O17 and O18: the step runs what it decodes (R52) and never faults while the
core is Running (R8). -/

namespace Sys2Proof.Machine

/-! ### Decode and encode -/

/-- Settles O14: the one constructor, whose encoding is its operand address. -/
theorem decodeOfEncodeIsTheInstruction : Obligations.DecodeOfEncodeIsTheInstruction := by
  intro i rest _
  cases i with
  | rssb x => exact ⟨rfl, rfl⟩

theorem tableBytes_byte (w : Byte) : tableBytes 8 w.toNat = [w] := by
  rw [tableBytes, if_pos (by decide), ofNat_toNat_mod]

/-- Settles O15: the operand address is the whole word. -/
theorem everyByteIsAnInstruction : Obligations.EveryByteIsAnInstruction := by
  intro w rest
  refine ⟨rfl, rfl, rfl, ?_⟩
  rw [decodeTableWord, tableBytes_byte]
  rfl

/-- Settles O16: the words are bytes, and each byte decodes to itself as operand address. -/
theorem specWordsDecode : Obligations.SpecWordsDecode :=
  ⟨rfl, rfl, rfl, rfl, rfl⟩

/-! ### The step -/

/-- Settles O17: the decoder reads the fetched word as the operand address, and so does the step. -/
theorem stepRunsDecodedInstruction : Obligations.StepRunsDecodedInstruction := by
  intro s i hrun hdecode _
  have hi : i = .rssb (fetchWord s) := by
    obtain ⟨hi, -⟩ := Prod.mk.inj (Except.ok.inj hdecode)
    exact hi.symm
  rw [hi, step_eq_exec_of_running hrun]

/-- Settles O18: a running core completes its cycle, and a halted one answers `halted`. -/
theorem runningCoreNeverFaults : Obligations.RunningCoreNeverFaults := by
  refine ⟨fun s hrun => ⟨_, step_eq_afterCycle hrun, ?_⟩, step_safe⟩
  cases (afterCycle (fetchWord s) s).run with
  | running => exact .inl rfl
  | halted => exact .inr rfl

end Sys2Proof.Machine
end
